-- ==== Sys2Proof/Config.lean ====
section
/-! DEFINITION. What the spec fixes for the hardware form (00_scope R6). The parameters the source itself fixes (32
registers of 32 bits, 32 bytes of memory, field widths 3, 6, 12, 3) stand as literals where their rules use them. The spec
leaves no value free for any operand of any instruction, so this file holds no free value. -/

namespace Sys2Proof.Config

/-- `ILEN`: the number of characters of a canonical line (decision D1; entry 7). -/
@[simp] abbrev ilen : Nat := 33

/-- `NMAX`: the most lines the hardware program store holds (decision D7; entry 6). -/
@[simp] abbrev nmax : Nat := 4096

/-- `PCW`: the width of the hardware pc register (decision D7; entry 6). -/
@[simp] abbrev pcw : Nat := 13

/-- The largest value of a 12-bit `arg3`, so the largest branch target (00_scope R6, 30_encoding R86). -/
@[simp] abbrev maxTarget : Nat := 4095

end Sys2Proof.Config
end

