-- ==== Sys2Proof/Word.lean ====
section
/-! DEFINITION. The plain types every other file uses: the register word, the memory byte, the instruction line. -/

namespace Sys2Proof

/-- A register value: an unsigned 32-bit integer (10_state R21; `XLEN`, 00_scope R6). -/
abbrev Word := BitVec 32

/-- A memory cell: an unsigned 8-bit integer (10_state R30). -/
abbrev Byte := BitVec 8

/-- An instruction line: a finite sequence of characters, of any length and over any characters
(00_scope R7, 10_state R31). The line terminator is no part of it (entry 10). -/
abbrev Line := List Char

end Sys2Proof
end

