-- ==== Sys2Proof/Syntax.lean ====
section
/-! DEFINITION. The instruction set: one constructor per row of spec/opcode_table.json, and the five decoded fields. -/

namespace Sys2Proof

/-- The Decoder's output, five non-negative integers (10_state R32, 40_decoder R116). It is transient, never state; a trace
record shows it (45_fetch_step R218). -/
structure Decoded where
  opCode : Nat
  arg1 : Nat
  arg2 : Nat
  arg3 : Nat
  function : Nat
  deriving DecidableEq, Repr

/-- The instructions of 30_encoding R90 and the illegal classes of R92. The arguments are the decoded fields of the line, in
the order `arg1 arg2 arg3` and, where the row leaves `function` open, `function`. Register fields range over 0 to 63: the
Decoder hands on 32 to 63 and the Executor faults (30_encoding R87). -/
inductive Instr where
  | add (arg1 arg2 arg3 : Nat)
  | sub (arg1 arg2 arg3 : Nat)
  | mul (arg1 arg2 arg3 : Nat)
  | div (arg1 arg2 arg3 : Nat)
  | and (arg1 arg2 arg3 : Nat)
  | or (arg1 arg2 arg3 : Nat)
  | xor (arg1 arg2 arg3 : Nat)
  | addi (arg1 arg2 arg3 : Nat)
  | subi (arg1 arg2 arg3 : Nat)
  | muli (arg1 arg2 arg3 : Nat)
  | divi (arg1 arg2 arg3 : Nat)
  | andi (arg1 arg2 arg3 : Nat)
  | ori (arg1 arg2 arg3 : Nat)
  | xori (arg1 arg2 arg3 : Nat)
  | beq (arg1 arg2 arg3 : Nat)
  | bne (arg1 arg2 arg3 : Nat)
  | blt (arg1 arg2 arg3 : Nat)
  | bgt (arg1 arg2 arg3 : Nat)
  | lw (arg1 arg2 arg3 : Nat)
  | sw (arg1 arg2 arg3 : Nat)
  | illegalOp0 (arg1 arg2 arg3 function : Nat)
  | illegalOp6 (arg1 arg2 arg3 : Nat)
  | illegalOp7 (arg1 arg2 arg3 : Nat)
  | illegalOp1Fn0 (arg1 arg2 arg3 : Nat)
  | illegalOp2Fn0 (arg1 arg2 arg3 : Nat)
  | illegalOp3Fn0 (arg1 arg2 arg3 : Nat)
  | illegalOp3Fn5 (arg1 arg2 arg3 : Nat)
  | illegalOp3Fn6Fn7 (arg1 arg2 arg3 function : Nat)
  deriving DecidableEq, Repr

/-- The decoded fields an instruction stands for: `op_code` and `function` of its row (30_encoding R90, R92), and its
arguments. `function` is 0 where it is not read (40_decoder R116). -/
def Instr.fields : Instr → Decoded
  | .add a b c => ⟨1, a, b, c, 1⟩
  | .sub a b c => ⟨1, a, b, c, 2⟩
  | .mul a b c => ⟨1, a, b, c, 3⟩
  | .div a b c => ⟨1, a, b, c, 4⟩
  | .and a b c => ⟨1, a, b, c, 5⟩
  | .or a b c => ⟨1, a, b, c, 6⟩
  | .xor a b c => ⟨1, a, b, c, 7⟩
  | .addi a b c => ⟨2, a, b, c, 1⟩
  | .subi a b c => ⟨2, a, b, c, 2⟩
  | .muli a b c => ⟨2, a, b, c, 3⟩
  | .divi a b c => ⟨2, a, b, c, 4⟩
  | .andi a b c => ⟨2, a, b, c, 5⟩
  | .ori a b c => ⟨2, a, b, c, 6⟩
  | .xori a b c => ⟨2, a, b, c, 7⟩
  | .beq a b c => ⟨3, a, b, c, 1⟩
  | .bne a b c => ⟨3, a, b, c, 2⟩
  | .blt a b c => ⟨3, a, b, c, 3⟩
  | .bgt a b c => ⟨3, a, b, c, 4⟩
  | .lw a b c => ⟨4, a, b, c, 0⟩
  | .sw a b c => ⟨5, a, b, c, 0⟩
  | .illegalOp0 a b c f => ⟨0, a, b, c, f⟩
  | .illegalOp6 a b c => ⟨6, a, b, c, 0⟩
  | .illegalOp7 a b c => ⟨7, a, b, c, 0⟩
  | .illegalOp1Fn0 a b c => ⟨1, a, b, c, 0⟩
  | .illegalOp2Fn0 a b c => ⟨2, a, b, c, 0⟩
  | .illegalOp3Fn0 a b c => ⟨3, a, b, c, 0⟩
  | .illegalOp3Fn5 a b c => ⟨3, a, b, c, 5⟩
  | .illegalOp3Fn6Fn7 a b c f => ⟨3, a, b, c, f⟩

end Sys2Proof
end

