-- ==== Sys2Proof/WellFormed.lean ====
section
/-! DEFINITION. When a term is something the Decoder can hand on: every field within its width (40_decoder R116). -/

namespace Sys2Proof

/-- The ranges of 40_decoder R116: `op_code` and `function` 3 bits, `arg1` and `arg2` 6 bits, `arg3` 6 bits for
`op_code` 1 and 12 bits for every other, and `function` 0 from `op_code` 4 up. -/
def Decoded.wf (d : Decoded) : Bool :=
  decide (d.opCode < 8 ∧ d.arg1 < 64 ∧ d.arg2 < 64 ∧ d.arg3 < (if d.opCode = 1 then 64 else 4096) ∧
    d.function < 8 ∧ (d.opCode < 4 ∨ d.function = 0))

/-- An instruction is well formed when its fields are in range and, for the row `ILLEGAL_OP3_FN6_FN7`, `function` is 6 or 7
(30_encoding R92). A register field of 32 to 63 is well formed: it decodes, and faults when executed (R87). -/
def Instr.wf (i : Instr) : Bool :=
  i.fields.wf &&
    match i with
    | .illegalOp3Fn6Fn7 _ _ _ f => decide (6 ≤ f)
    | _ => true

end Sys2Proof
end

