-- ==== Sys2Proof/Decode.lean ====
section
/-! DEFINITION. The Decoder (40_decoder): field extraction, the decoding procedure and its one failure; the map from
decoded fields to the rows of the opcode table; then the encoder, the bit view of canonical lines, the assembler notation
and the opcode table's masks. -/

namespace Sys2Proof

/-- The Decoder's one failure, `DecodeError(line)` with its one cause (60_exceptions R231, R233). -/
inductive DecodeError where
  /-- `MalformedLine`, carrying the whole line as fetched. -/
  | malformedLine (line : Line)
  deriving DecidableEq, Repr

/-- The value of a binary character, none for any other (00_scope R7). -/
def digit (c : Char) : Option Nat :=
  if c = '0' then some 0 else if c = '1' then some 1 else none

/-- `bin` (00_scope R7) from an accumulator: the base-2 numeral of a run of characters, first character most significant
(PRESUMED, entry 8), none if a character is not binary. -/
def binFrom (acc : Nat) : Line → Option Nat
  | [] => some acc
  | c :: cs =>
    match digit c with
    | none => none
    | some d => binFrom (2 * acc + d) cs

/-- The run `line[a:b)` (00_scope R7). -/
def slice (line : Line) (a b : Nat) : Line :=
  (line.drop a).take (b - a)

/-- `Field(line, a, b)` (40_decoder R111): fails where any part of the slice lies outside the line (decision D3, entry 9),
where the slice is empty, or where a character of it is not binary. -/
def field (line : Line) (a b : Int) : Option Nat :=
  if a < 0 ∨ (line.length : Int) < b ∨ b ≤ a then none
  else binFrom 0 (slice line a.toNat b.toNat)

/-- `Decode(line)` up to the five fields (40_decoder R112; positions 30_encoding R81). Characters that no field covers are
not read (30_encoding R88; entry 11). -/
def decodeFields (line : Line) : Option Decoded := do
  let opCode ← field line 0 3
  let arg1 ← field line 3 9
  let arg2 ← field line 9 15
  let arg3 ← (if opCode = 1 then field line 15 21 else field line 15 27)
  let function ← (if opCode < 4 then field line (line.length - 6) (line.length - 3) else some 0)
  return ⟨opCode, arg1, arg2, arg3, function⟩

/-- The row of the opcode map the decoded fields select (30_encoding R90, R92). Total: the Decoder's `op_code` and
`function` are below 8 (40_decoder R116), so the last arm is `op_code` 7 and the arm before a new `op_code` the values that
R92 lists. -/
def Decoded.toInstr (d : Decoded) : Instr :=
  match d.opCode, d.function with
  | 0, f => .illegalOp0 d.arg1 d.arg2 d.arg3 f
  | 1, 1 => .add d.arg1 d.arg2 d.arg3
  | 1, 2 => .sub d.arg1 d.arg2 d.arg3
  | 1, 3 => .mul d.arg1 d.arg2 d.arg3
  | 1, 4 => .div d.arg1 d.arg2 d.arg3
  | 1, 5 => .and d.arg1 d.arg2 d.arg3
  | 1, 6 => .or d.arg1 d.arg2 d.arg3
  | 1, 7 => .xor d.arg1 d.arg2 d.arg3
  | 1, _ => .illegalOp1Fn0 d.arg1 d.arg2 d.arg3
  | 2, 1 => .addi d.arg1 d.arg2 d.arg3
  | 2, 2 => .subi d.arg1 d.arg2 d.arg3
  | 2, 3 => .muli d.arg1 d.arg2 d.arg3
  | 2, 4 => .divi d.arg1 d.arg2 d.arg3
  | 2, 5 => .andi d.arg1 d.arg2 d.arg3
  | 2, 6 => .ori d.arg1 d.arg2 d.arg3
  | 2, 7 => .xori d.arg1 d.arg2 d.arg3
  | 2, _ => .illegalOp2Fn0 d.arg1 d.arg2 d.arg3
  | 3, 0 => .illegalOp3Fn0 d.arg1 d.arg2 d.arg3
  | 3, 1 => .beq d.arg1 d.arg2 d.arg3
  | 3, 2 => .bne d.arg1 d.arg2 d.arg3
  | 3, 3 => .blt d.arg1 d.arg2 d.arg3
  | 3, 4 => .bgt d.arg1 d.arg2 d.arg3
  | 3, 5 => .illegalOp3Fn5 d.arg1 d.arg2 d.arg3
  | 3, f => .illegalOp3Fn6Fn7 d.arg1 d.arg2 d.arg3 f
  | 4, _ => .lw d.arg1 d.arg2 d.arg3
  | 5, _ => .sw d.arg1 d.arg2 d.arg3
  | 6, _ => .illegalOp6 d.arg1 d.arg2 d.arg3
  | _, _ => .illegalOp7 d.arg1 d.arg2 d.arg3

/-- The Decoder (40_decoder R110): the instruction the line encodes, or `DecodeError(line)` carrying the line. -/
def decode (line : Line) : Except DecodeError Instr :=
  match decodeFields line with
  | some d => .ok d.toInstr
  | none => .error (.malformedLine line)

/-! ## The encoder, from 30_encoding R84 and R95 -/

/-- The `w` low bits of `n` as characters, most significant first (30_encoding R95: "first character most significant"). -/
def bits (w n : Nat) : Line :=
  match w with
  | 0 => []
  | k + 1 => (if n.testBit k then '1' else '0') :: bits k n

/-- A canonical line from its fields, in the layout of 30_encoding R84, with `0` at every ignored position (R88, decision
D17; entry 22). -/
def Decoded.encode (d : Decoded) : Line :=
  bits 3 d.opCode ++ bits 6 d.arg1 ++ bits 6 d.arg2 ++
    (if d.opCode = 1 then bits 6 d.arg3 ++ bits 6 0 else bits 12 d.arg3) ++
    bits 3 d.function ++ bits 3 0

/-- The canonical line of an instruction. -/
def encode (i : Instr) : Line :=
  i.fields.encode

/-- The canonical line of the 33-bit word `iw`: position `p` is bit `32 - p` (00_scope R8). -/
def lineOfWord (iw : Nat) : Line :=
  bits Config.ilen iw

/-- The 33-bit word of a canonical line (00_scope R8); none for a line that is not canonical. -/
def wordOfLine (line : Line) : Option Nat :=
  if line.length = Config.ilen then binFrom 0 line else none

/-- A line is canonical when it has `ILEN` characters, all binary (00_scope section 7). -/
def canonicalLine (line : Line) : Bool :=
  decide (line.length = Config.ilen) && line.all (fun c => decide (c = '0') || decide (c = '1'))

/-- The instruction the decoder reads from the 33-bit word `w`, bit 0 its least significant and last character, as
spec/opcode_table.json numbers `match` and `mask` (00_scope R8, 30_encoding R97; entry 24). The table gives every row all 33
bits, so `nbits` adds nothing; a number of more than 33 bits is no instruction. -/
def decodeTableWord (_nbits w : Nat) : Option Instr :=
  if w < 2 ^ Config.ilen then
    match decode (lineOfWord w) with
    | .ok i => some i
    | .error _ => none
  else none

/-! ## The opcode table as masks (30_encoding R97) -/

/-- A row of opcode_table.json: a canonical line with word `iw` selects it when `iw &&& mask = value`. -/
structure TableRow where
  mnemonic : String
  value : Nat
  mask : Nat
  deriving DecidableEq, Repr

/-- The mnemonic, `match` and `mask` that opcode_table.json gives the instruction's row. -/
def Instr.row : Instr → TableRow
  | .add .. => ⟨"ADD", 0x040000008, 0x1C0000038⟩
  | .sub .. => ⟨"SUB", 0x040000010, 0x1C0000038⟩
  | .mul .. => ⟨"MUL", 0x040000018, 0x1C0000038⟩
  | .div .. => ⟨"DIV", 0x040000020, 0x1C0000038⟩
  | .and .. => ⟨"AND", 0x040000028, 0x1C0000038⟩
  | .or .. => ⟨"OR", 0x040000030, 0x1C0000038⟩
  | .xor .. => ⟨"XOR", 0x040000038, 0x1C0000038⟩
  | .addi .. => ⟨"ADDI", 0x080000008, 0x1C0000038⟩
  | .subi .. => ⟨"SUBI", 0x080000010, 0x1C0000038⟩
  | .muli .. => ⟨"MULI", 0x080000018, 0x1C0000038⟩
  | .divi .. => ⟨"DIVI", 0x080000020, 0x1C0000038⟩
  | .andi .. => ⟨"ANDI", 0x080000028, 0x1C0000038⟩
  | .ori .. => ⟨"ORI", 0x080000030, 0x1C0000038⟩
  | .xori .. => ⟨"XORI", 0x080000038, 0x1C0000038⟩
  | .beq .. => ⟨"BEQ", 0x0C0000008, 0x1C0000038⟩
  | .bne .. => ⟨"BNE", 0x0C0000010, 0x1C0000038⟩
  | .blt .. => ⟨"BLT", 0x0C0000018, 0x1C0000038⟩
  | .bgt .. => ⟨"BGT", 0x0C0000020, 0x1C0000038⟩
  | .lw .. => ⟨"LW", 0x100000000, 0x1C0000000⟩
  | .sw .. => ⟨"SW", 0x140000000, 0x1C0000000⟩
  | .illegalOp0 .. => ⟨"ILLEGAL_OP0", 0x000000000, 0x1C0000000⟩
  | .illegalOp6 .. => ⟨"ILLEGAL_OP6", 0x180000000, 0x1C0000000⟩
  | .illegalOp7 .. => ⟨"ILLEGAL_OP7", 0x1C0000000, 0x1C0000000⟩
  | .illegalOp1Fn0 .. => ⟨"ILLEGAL_OP1_FN0", 0x040000000, 0x1C0000038⟩
  | .illegalOp2Fn0 .. => ⟨"ILLEGAL_OP2_FN0", 0x080000000, 0x1C0000038⟩
  | .illegalOp3Fn0 .. => ⟨"ILLEGAL_OP3_FN0", 0x0C0000000, 0x1C0000038⟩
  | .illegalOp3Fn5 .. => ⟨"ILLEGAL_OP3_FN5", 0x0C0000028, 0x1C0000038⟩
  | .illegalOp3Fn6Fn7 .. => ⟨"ILLEGAL_OP3_FN6_FN7", 0x0C0000030, 0x1C0000030⟩

/-- The word `iw` selects the instruction's row of the opcode table. -/
def Instr.rowMatches (i : Instr) (iw : Nat) : Bool :=
  decide (iw &&& i.row.mask = i.row.value)

/-! ## Assembler notation (30_encoding R95) -/

/-- `r<i>` for `i` from 0 to 31 (10_state R22, 30_encoding R95, decision D17). R95 has no text for a register field of 32 to 63;
that it is written `r32` to `r63` is DESIGN CHOICE (entry 29). -/
def asmReg (n : Nat) : String := "r" ++ toString n

/-- `OP rd, rs1, rs2` (30_encoding R95). -/
def asmR (op : String) (a b c : Nat) : String :=
  op ++ " " ++ asmReg a ++ ", " ++ asmReg b ++ ", " ++ asmReg c

/-- `OPI rd, rs1, imm` and `Bcc ra, rb, target` (30_encoding R95). -/
def asmI (op : String) (a b c : Nat) : String :=
  op ++ " " ++ asmReg a ++ ", " ++ asmReg b ++ ", " ++ toString c

/-- `LW rd, off(rb)` and `SW rs, off(rb)` (30_encoding R95). -/
def asmM (op : String) (a b c : Nat) : String :=
  op ++ " " ++ asmReg a ++ ", " ++ toString c ++ "(" ++ asmReg b ++ ")"

/-- The instruction in the spec's own notation (30_encoding R95, decision D17), its numbers in decimal; a register field of 32 or
more as `asmReg` writes it (entry 29); an illegal row has none. -/
def Instr.assembly (i : Instr) : Option String :=
  match i with
  | .add a b c | .sub a b c | .mul a b c | .div a b c | .and a b c | .or a b c | .xor a b c =>
    some (asmR i.row.mnemonic a b c)
  | .addi a b c | .subi a b c | .muli a b c | .divi a b c | .andi a b c | .ori a b c | .xori a b c
  | .beq a b c | .bne a b c | .blt a b c | .bgt a b c => some (asmI i.row.mnemonic a b c)
  | .lw a b c | .sw a b c => some (asmM i.row.mnemonic a b c)
  | .illegalOp0 .. | .illegalOp6 .. | .illegalOp7 .. | .illegalOp1Fn0 .. | .illegalOp2Fn0 ..
  | .illegalOp3Fn0 .. | .illegalOp3Fn5 .. | .illegalOp3Fn6Fn7 .. => none

end Sys2Proof
end

