-- ==== Sys2Proof/Machine/State.lean ====
section
/-! DEFINITION. The machine's state as plain data (10_state), what the CORE puts out to the host (45_fetch_step R217, R218),
the reasons a step can stop, and the state after reset. -/

namespace Sys2Proof.Machine

/-- The data memory (10_state R30): the bytes that differ from `Memory.blank`, by rising address. -/
abbrev Memory := List Host.Cell

/-- The causes of an `ExecutionError` (60_exceptions R233). -/
inductive Cause where
  /-- Cause 1: `op_code` is 0, 6 or 7. -/
  | unrecognizedOpcode
  /-- Cause 2: a field used as a register index is 32 or more. -/
  | registerIndexOutOfBounds
  /-- Cause 3: `op_code` 1 or 2 with `function` 0, `op_code` 3 with `function` 0, 5, 6 or 7. -/
  | unrecognizedFunction
  /-- Cause 4: `LW` or `SW` with an address of 32 or more. -/
  | memoryAddressOutOfBounds
  /-- Cause 5: `DIV` or `DIVI` with a zero divisor (decision D8; entry 12). -/
  | divisionByZero
  /-- Cause 6: `LW` or `SW` with an address of 29, 30 or 31 (decision D11; entry 15). -/
  | memoryWordOverrun
  deriving DecidableEq, Repr

/-- The two fault kinds with what each records (60_exceptions R230 to R235). -/
inductive FaultInfo where
  | decodeError (line : Line)
  | executionError (cause : Cause)
  deriving DecidableEq, Repr

/-- The run status (10_state R33). -/
inductive RunStatus where
  | running
  | halted
  | faulted (info : FaultInfo)
  deriving DecidableEq, Repr

/-- The trace record of a completed cycle (45_fetch_step R218): the new pc, the decoded fields, all registers and all 32
bytes of memory after the instruction. -/
structure TraceRecord where
  newPc : Nat
  decoded : Decoded
  regs : Vector Word 32
  mem : Vector Byte 32
  deriving DecidableEq, Repr

/-- The fault report (45_fetch_step R217): kind and cause, and the pc and line of the faulting instruction (decision D14). -/
structure FaultReport where
  info : FaultInfo
  pc : Nat
  line : Option Line
  deriving DecidableEq, Repr

/-- What the CORE puts out to the host. -/
inductive Output where
  | trace (r : TraceRecord)
  | report (r : FaultReport)
  deriving DecidableEq, Repr

/-- The state of the machine (10_state R20, R33), with the program store the step reads (R31; entry 1) and what has been put
out so far (entry 20). -/
structure State where
  /-- `x[0]` to `x[31]` (10_state R21, R22): all alike, none hard-wired. -/
  regs : Vector Word 32
  /-- `mem[0]` to `mem[31]` (10_state R30). -/
  mem : Memory
  /-- The program counter, a line index (10_state R24, R26; entry 6). -/
  pc : Nat
  /-- The run status (10_state R33). -/
  status : RunStatus
  /-- The program store; `N` is its length (10_state R31). No instruction and no step changes it (entry 23). -/
  program : List Line
  /-- MODEL'S OWN (entry 20): the outputs of this run, newest first. No instruction reads it. -/
  out : List Output
  deriving DecidableEq, Repr

/-- Reasons for `Host.Outcome.fault`. There is none: each fault the spec describes leaves a state, with the run status
`Faulted` (60_exceptions R237, 10_state R33), and is a next state of the model; nothing in the spec stops the machine without
one (entries 5 and 28). Safe: no behaviour is cut off. -/
inductive Fault where
  deriving DecidableEq, Repr

/-- Reasons for `Host.Outcome.refused`. -/
inductive Refusal where
  /-- An instruction with no meaning yet. Raised by nothing in this model: every constructor of `Instr` has its meaning. Safe
  where it would be raised: the run stops. -/
  | notModelled (mnemonic : String)
  deriving DecidableEq, Repr

/-- The state after reset (10_state R36, 70_reset_and_hazards R270): pc 0 and Running; registers and memory 0 by the spec's
decision D6 (DESIGN CHOICE, entries 3 and 4); no program placed (entry 2); nothing put out. -/
def State.reset : State where
  regs := Vector.replicate 32 0
  mem := []
  pc := 0
  status := .running
  program := []
  out := []

end Sys2Proof.Machine
end

