-- ==== Sys2Proof/Machine/Ops.lean ====
section
/-! DEFINITION. The named operations over memory, registers and pc (00_scope R10), and taking a fault (60_exceptions R237)
as one shared operation. There is no return from a fault (R239). -/

namespace Sys2Proof.Machine

/-- What a meaning answers. -/
abbrev Result := Host.Outcome State Fault Refusal

/-! ## Arithmetic -/

/-- `mask32(v) = v mod 2^32` (00_scope R9), of an integer: a negative value gives its residue (41_alu_reg R132). -/
def mask32 (v : Int) : Word :=
  BitVec.ofInt 32 v

/-- `zext_32(v)` (00_scope R10, 30_encoding R86). -/
def zext32 (v : Nat) : Word :=
  BitVec.ofNat 32 v

/-! ## Memory -/

/-- What a byte no entry lists reads as: 0, the reset value of every byte (10_state R36, decision D6; DESIGN CHOICE,
entry 4). -/
def Memory.blank : Byte := 0

/-- The byte at `a`. -/
def Memory.read (m : Memory) (a : Nat) : Byte :=
  match m with
  | [] => Memory.blank
  | (b, v) :: rest => if a = b then v else Memory.read rest a

/-- Writes one byte, keeping the canonical form: addresses rising, no entry equal to `Memory.blank`. -/
def Memory.write (m : Memory) (a : Nat) (v : Byte) : Memory :=
  match m with
  | [] => if v = Memory.blank then [] else [(a, v)]
  | (b, w) :: rest =>
    if a < b then (if v = Memory.blank then (b, w) :: rest else (a, v) :: (b, w) :: rest)
    else if a = b then (if v = Memory.blank then rest else (a, v) :: rest)
    else (b, w) :: Memory.write rest a v

/-- Every address from `lo` up and below 32, strictly rising, and no entry equal to `Memory.blank`. -/
def Memory.wfFrom (lo : Nat) (m : Memory) : Bool :=
  match m with
  | [] => true
  | (a, v) :: rest =>
    decide (lo ≤ a) && decide (a < 32) && decide (v ≠ Memory.blank) && Memory.wfFrom (a + 1) rest

/-- The canonical form of the 32-byte data memory (10_state R30). -/
def Memory.wf (m : Memory) : Bool :=
  Memory.wfFrom 0 m

/-- `MemRead(a, 4)` (20_memory R53): four bytes, most significant first (R52). -/
def Memory.readWord (m : Memory) (a : Nat) : Word :=
  m.read a ++ m.read (a + 1) ++ m.read (a + 2) ++ m.read (a + 3)

/-- Byte `k` of a word in big-endian order, 0 the most significant (20_memory R52). -/
def byteOf (v : Word) (k : Nat) : Byte :=
  (v >>> (8 * (3 - k))).setWidth 8

/-- `MemWrite(a, 4, v)` (20_memory R54). -/
def Memory.writeWord (m : Memory) (a : Nat) (v : Word) : Memory :=
  (((m.write a (byteOf v 0)).write (a + 1) (byteOf v 1)).write (a + 2) (byteOf v 2)).write (a + 3) (byteOf v 3)

/-- All 32 bytes, as a trace record shows them (45_fetch_step R218). -/
def Memory.dump (m : Memory) : Vector Byte 32 :=
  Vector.ofFn fun i => m.read i.val

/-- The memory whose bytes are `v` (10_state R36: a launch state with given memory). -/
def Memory.ofBytes (v : Vector Byte 32) : Memory :=
  (List.finRange 32).foldl (fun m i => m.write i.val v[i]) []

/-! ## Registers and pc -/

/-- `x[i]` (00_scope R10). -/
def State.reg (s : State) (i : Fin 32) : Word :=
  s.regs[i]

/-- `x[i] <- v` (00_scope R10). Register 0 is like every other (10_state R22). -/
def State.setReg (s : State) (i : Fin 32) (v : Word) : State :=
  { s with regs := s.regs.set i v }

/-- `pc <- t` (00_scope R10). -/
def State.setPc (s : State) (t : Nat) : State :=
  { s with pc := t }

/-- `pc <- pc + 1` (10_state R25). -/
def State.advance (s : State) : State :=
  s.setPc (s.pc + 1)

/-- The memory replaced. -/
def State.setMem (s : State) (m : Memory) : State :=
  { s with mem := m }

/-! ## The run status -/

/-- Taking a fault (60_exceptions R237): registers, memory and pc keep their values, the run status becomes `Faulted`, and
the fault report is put out, once (45_fetch_step R217). Control goes nowhere. The line in the report is the one the
unchanged pc names (60_exceptions R235). -/
def takeFault (info : FaultInfo) (s : State) : State :=
  { s with
    status := .faulted info
    out := .report { info := info, pc := s.pc, line := s.program[s.pc]? } :: s.out }

/-- `raise ExecutionError(cause)` (00_scope R10). -/
def raise (c : Cause) (s : State) : Result :=
  .next (takeFault (.executionError c) s)

/-- The normal halt (45_fetch_step R213): only the run status changes. -/
def halt (s : State) : State :=
  { s with status := .halted }

end Sys2Proof.Machine
end

