-- ==== Sys2Proof/Machine/Operands.lean ====
section
/-! DEFINITION. The operand forms of the five families (30_encoding R83), each with its checks in the order of
60_exceptions R236 (decision D13, entry 17). Every check comes before any write (45_fetch_step R212). -/

namespace Sys2Proof.Machine

/-- The end of an ALU instruction: write the result and advance, or raise (41_alu_reg R130). -/
def finishAlu (d : Fin 32) (r : Except Cause Word) (s : State) : Result :=
  match r with
  | .ok v => .next (s.setReg d v).advance
  | .error c => raise c s

/-- `ExecR` (41_alu_reg R130): three register operands. -/
def execR (op : Word → Word → Except Cause Word) (arg1 arg2 arg3 : Nat) (s : State) : Result :=
  if h : arg1 < 32 ∧ arg2 < 32 ∧ arg3 < 32 then
    finishAlu ⟨arg1, h.1⟩ (op (s.reg ⟨arg2, h.2.1⟩) (s.reg ⟨arg3, h.2.2⟩)) s
  else raise .registerIndexOutOfBounds s

/-- `ExecI` (42_alu_imm R150): two register operands and the raw immediate, zero-extended. -/
def execI (op : Word → Word → Except Cause Word) (arg1 arg2 arg3 : Nat) (s : State) : Result :=
  if h : arg1 < 32 ∧ arg2 < 32 then
    finishAlu ⟨arg1, h.1⟩ (op (s.reg ⟨arg2, h.2⟩) (zext32 arg3)) s
  else raise .registerIndexOutOfBounds s

/-- `ExecB` (43_branch R170): compares `x[arg1]` with `x[arg2]`; the target is absolute and not checked (R176). -/
def execB (cond : Word → Word → Bool) (arg1 arg2 arg3 : Nat) (s : State) : Result :=
  if h : arg1 < 32 ∧ arg2 < 32 then
    .next (if cond (s.reg ⟨arg1, h.1⟩) (s.reg ⟨arg2, h.2⟩) then s.setPc arg3 else s.advance)
  else raise .registerIndexOutOfBounds s

/-- The effective address `x[arg2] + arg3` (44_load_store R190): the exact sum, not reduced modulo 2^32 (decision D12,
entry 16). -/
def effAddr (base : Fin 32) (offset : Nat) (s : State) : Nat :=
  (s.reg base).toNat + offset

/-- The bounds of a word access: first byte, then last byte (20_memory R58, R59; entry 15). -/
def checkAddr (a : Nat) : Except Cause Nat :=
  if 32 ≤ a then .error .memoryAddressOutOfBounds
  else if 28 < a then .error .memoryWordOverrun
  else .ok a

/-- Load and store (44_load_store R190): two register operands, the checked address, then the access `body` and `pc + 1`.
`arg2` is checked like `arg1` (decision D10, entry 14). -/
def execM (body : Fin 32 → Nat → State → State) (arg1 arg2 arg3 : Nat) (s : State) : Result :=
  if h : arg1 < 32 ∧ arg2 < 32 then
    match checkAddr (effAddr ⟨arg2, h.2⟩ arg3 s) with
    | .ok a => .next (body ⟨arg1, h.1⟩ a s).advance
    | .error c => raise c s
  else raise .registerIndexOutOfBounds s

/-- `ExecR` with no function of R130 to run: register bounds, then the function (41_alu_reg R138). -/
def badFunctionR (arg1 arg2 arg3 : Nat) (s : State) : Result :=
  if arg1 < 32 ∧ arg2 < 32 ∧ arg3 < 32 then raise .unrecognizedFunction s
  else raise .registerIndexOutOfBounds s

/-- `ExecI` and `ExecB` with no function to run: register bounds, then the function (42_alu_imm R158, 43_branch R175). -/
def badFunctionIB (arg1 arg2 : Nat) (s : State) : Result :=
  if arg1 < 32 ∧ arg2 < 32 then raise .unrecognizedFunction s
  else raise .registerIndexOutOfBounds s

end Sys2Proof.Machine
end

