-- ==== Sys2Proof/Machine/Alu.lean ====
section
/-! DEFINITION. The seven operations `OP_function` of the ALU, shared by `op_code` 1 and 2 (41_alu_reg R130, 42_alu_imm R150):
exact on the unsigned operands, then masked. They write no flag. -/

namespace Sys2Proof.Machine

/-- Function 1: sum (41_alu_reg R131). -/
def opAdd (a b : Word) : Except Cause Word := .ok (mask32 (a.toNat + b.toNat))

/-- Function 2: difference, first operand minus second (41_alu_reg R132). -/
def opSub (a b : Word) : Except Cause Word := .ok (mask32 (a.toNat - b.toNat))

/-- Function 3: product (41_alu_reg R133). -/
def opMul (a b : Word) : Except Cause Word := .ok (mask32 (a.toNat * b.toNat))

/-- Function 4: truncating quotient of unsigned integers; a zero divisor raises (41_alu_reg R134; decision D8, entry 12). -/
def opDiv (a b : Word) : Except Cause Word :=
  if b.toNat = 0 then .error .divisionByZero else .ok (mask32 ((a.toNat / b.toNat : Nat) : Int))

/-- Function 5: bitwise and (41_alu_reg R135). -/
def opAnd (a b : Word) : Except Cause Word := .ok (a &&& b)

/-- Function 6: bitwise or (41_alu_reg R136). -/
def opOr (a b : Word) : Except Cause Word := .ok (a ||| b)

/-- Function 7: bitwise exclusive or (41_alu_reg R137). -/
def opXor (a b : Word) : Except Cause Word := .ok (a ^^^ b)

end Sys2Proof.Machine
end

