-- ==== Sys2Proof/Machine/AluImm.lean ====
section
/-! DEFINITION. The register-immediate ALU instructions, `op_code` 2 (42_alu_imm). -/

namespace Sys2Proof.Machine

/-- `ADDI rd, rs1, imm` (42_alu_imm R151): sum of `x[arg2]` and the immediate. -/
def execAddi (arg1 arg2 arg3 : Nat) (s : State) : Result := execI opAdd arg1 arg2 arg3 s

/-- `SUBI rd, rs1, imm` (42_alu_imm R152): difference of `x[arg2]` and the immediate. -/
def execSubi (arg1 arg2 arg3 : Nat) (s : State) : Result := execI opSub arg1 arg2 arg3 s

/-- `MULI rd, rs1, imm` (42_alu_imm R153): product of `x[arg2]` and the immediate. -/
def execMuli (arg1 arg2 arg3 : Nat) (s : State) : Result := execI opMul arg1 arg2 arg3 s

/-- `DIVI rd, rs1, imm` (42_alu_imm R154): truncating quotient of `x[arg2]` and the immediate. -/
def execDivi (arg1 arg2 arg3 : Nat) (s : State) : Result := execI opDiv arg1 arg2 arg3 s

/-- `ANDI rd, rs1, imm` (42_alu_imm R155): bitwise and of `x[arg2]` and the immediate. -/
def execAndi (arg1 arg2 arg3 : Nat) (s : State) : Result := execI opAnd arg1 arg2 arg3 s

/-- `ORI rd, rs1, imm` (42_alu_imm R156): bitwise or of `x[arg2]` and the immediate. -/
def execOri (arg1 arg2 arg3 : Nat) (s : State) : Result := execI opOr arg1 arg2 arg3 s

/-- `XORI rd, rs1, imm` (42_alu_imm R157): bitwise exclusive or of `x[arg2]` and the immediate. -/
def execXori (arg1 arg2 arg3 : Nat) (s : State) : Result := execI opXor arg1 arg2 arg3 s

end Sys2Proof.Machine
end

