-- ==== Sys2Proof/Machine/AluReg.lean ====
section
/-! DEFINITION. The register-register ALU instructions, `op_code` 1 (41_alu_reg). -/

namespace Sys2Proof.Machine

/-- `ADD rd, rs1, rs2` (41_alu_reg R131): sum of `x[arg2]` and `x[arg3]`. -/
def execAdd (arg1 arg2 arg3 : Nat) (s : State) : Result := execR opAdd arg1 arg2 arg3 s

/-- `SUB rd, rs1, rs2` (41_alu_reg R132): difference of `x[arg2]` and `x[arg3]`. -/
def execSub (arg1 arg2 arg3 : Nat) (s : State) : Result := execR opSub arg1 arg2 arg3 s

/-- `MUL rd, rs1, rs2` (41_alu_reg R133): product of `x[arg2]` and `x[arg3]`. -/
def execMul (arg1 arg2 arg3 : Nat) (s : State) : Result := execR opMul arg1 arg2 arg3 s

/-- `DIV rd, rs1, rs2` (41_alu_reg R134): truncating quotient of `x[arg2]` and `x[arg3]`. -/
def execDiv (arg1 arg2 arg3 : Nat) (s : State) : Result := execR opDiv arg1 arg2 arg3 s

/-- `AND rd, rs1, rs2` (41_alu_reg R135): bitwise and of `x[arg2]` and `x[arg3]`. -/
def execAnd (arg1 arg2 arg3 : Nat) (s : State) : Result := execR opAnd arg1 arg2 arg3 s

/-- `OR rd, rs1, rs2` (41_alu_reg R136): bitwise or of `x[arg2]` and `x[arg3]`. -/
def execOr (arg1 arg2 arg3 : Nat) (s : State) : Result := execR opOr arg1 arg2 arg3 s

/-- `XOR rd, rs1, rs2` (41_alu_reg R137): bitwise exclusive or of `x[arg2]` and `x[arg3]`. -/
def execXor (arg1 arg2 arg3 : Nat) (s : State) : Result := execR opXor arg1 arg2 arg3 s

end Sys2Proof.Machine
end

