-- ==== Sys2Proof/Machine/Flags.lean ====
section
/-! DEFINITION. The CORE has no status flags (10_state R27): no instruction sets a carry, overflow, zero or sign indication.
What stands here is what other machines compute into flags: the four comparisons a branch makes directly (43_branch R170). -/

namespace Sys2Proof.Machine

/-! All compare unsigned integers (decision D18, entry 21). -/

/-- `COND_1`: equal (43_branch R171). -/
def condEq (a b : Word) : Bool := decide (a.toNat = b.toNat)

/-- `COND_2`: not equal (43_branch R172). -/
def condNe (a b : Word) : Bool := decide (a.toNat ≠ b.toNat)

/-- `COND_3`: unsigned less (43_branch R173). -/
def condLt (a b : Word) : Bool := decide (a.toNat < b.toNat)

/-- `COND_4`: unsigned greater (43_branch R174). -/
def condGt (a b : Word) : Bool := decide (a.toNat > b.toNat)

end Sys2Proof.Machine
end

