-- ==== Sys2Proof/Machine/Branch.lean ====
section
/-! DEFINITION. The conditional branches, `op_code` 3 (43_branch). -/

namespace Sys2Proof.Machine

/-- `BEQ ra, rb, target` (43_branch R171): jump if `x[arg1]` is equal to `x[arg2]`. -/
def execBeq (arg1 arg2 arg3 : Nat) (s : State) : Result := execB condEq arg1 arg2 arg3 s

/-- `BNE ra, rb, target` (43_branch R172): jump if `x[arg1]` is not equal to `x[arg2]`. -/
def execBne (arg1 arg2 arg3 : Nat) (s : State) : Result := execB condNe arg1 arg2 arg3 s

/-- `BLT ra, rb, target` (43_branch R173): jump if `x[arg1]` is unsigned less than `x[arg2]`. -/
def execBlt (arg1 arg2 arg3 : Nat) (s : State) : Result := execB condLt arg1 arg2 arg3 s

/-- `BGT ra, rb, target` (43_branch R174): jump if `x[arg1]` is unsigned greater than `x[arg2]`. -/
def execBgt (arg1 arg2 arg3 : Nat) (s : State) : Result := execB condGt arg1 arg2 arg3 s

end Sys2Proof.Machine
end

