-- ==== Sys2Proof/Machine/Illegal.lean ====
section
/-! DEFINITION. The illegal classes of the opcode table (30_encoding R92): executing one takes a fault (entry 26). -/

namespace Sys2Proof.Machine

/-- `op_code` 0 (30_encoding R92): "faults immediately: unrecognized opcode", before any other field is looked at. -/
def execIllegalOp0 (_arg1 _arg2 _arg3 _function : Nat) (s : State) : Result := raise .unrecognizedOpcode s

/-- `op_code` 6 (30_encoding R92). -/
def execIllegalOp6 (_arg1 _arg2 _arg3 : Nat) (s : State) : Result := raise .unrecognizedOpcode s

/-- `op_code` 7 (30_encoding R92). -/
def execIllegalOp7 (_arg1 _arg2 _arg3 : Nat) (s : State) : Result := raise .unrecognizedOpcode s

/-- `op_code` 1, `function` 0 (41_alu_reg R138). -/
def execIllegalOp1Fn0 (arg1 arg2 arg3 : Nat) (s : State) : Result := badFunctionR arg1 arg2 arg3 s

/-- `op_code` 2, `function` 0 (42_alu_imm R158). -/
def execIllegalOp2Fn0 (arg1 arg2 _arg3 : Nat) (s : State) : Result := badFunctionIB arg1 arg2 s

/-- `op_code` 3, `function` 0 (43_branch R175; decision D9, entry 13). -/
def execIllegalOp3Fn0 (arg1 arg2 _arg3 : Nat) (s : State) : Result := badFunctionIB arg1 arg2 s

/-- `op_code` 3, `function` 5 (43_branch R175). -/
def execIllegalOp3Fn5 (arg1 arg2 _arg3 : Nat) (s : State) : Result := badFunctionIB arg1 arg2 s

/-- `op_code` 3, `function` 6 or 7 (43_branch R175). -/
def execIllegalOp3Fn6Fn7 (arg1 arg2 _arg3 _function : Nat) (s : State) : Result := badFunctionIB arg1 arg2 s

end Sys2Proof.Machine
end

