-- ==== Sys2Proof/Machine/LoadStore.lean ====
section
/-! DEFINITION. Load word and store word, `op_code` 4 and 5 (44_load_store). -/

namespace Sys2Proof.Machine

/-- The access of a load: `x[d] <- MemRead(a, 4)` (44_load_store R191). -/
def loadWord (d : Fin 32) (a : Nat) (s : State) : State :=
  s.setReg d (s.mem.readWord a)

/-- The access of a store: `MemWrite(a, 4, x[r])` (44_load_store R192). -/
def storeWord (r : Fin 32) (a : Nat) (s : State) : State :=
  s.setMem (s.mem.writeWord a (s.reg r))

/-- `LW rd, off(rb)` (44_load_store R191): `x[arg1] <- MemRead(x[arg2] + arg3, 4)`. -/
def execLw (arg1 arg2 arg3 : Nat) (s : State) : Result := execM loadWord arg1 arg2 arg3 s

/-- `SW rs, off(rb)` (44_load_store R192): `MemWrite(x[arg2] + arg3, 4, x[arg1])`; `arg1` is a source. -/
def execSw (arg1 arg2 arg3 : Nat) (s : State) : Result := execM storeWord arg1 arg2 arg3 s

end Sys2Proof.Machine
end

