-- ==== Sys2Proof/Machine/Dispatch.lean ====
section
/-! DEFINITION. The Executor's dispatch (45_fetch_step R211): one arm per constructor of Instr. -/

namespace Sys2Proof.Machine

def exec (i : Instr) (s : State) : Host.Outcome State Fault Refusal :=
  match i with
  | .add a b c => Sys2Proof.Machine.execAdd a b c s
  | .sub a b c => Sys2Proof.Machine.execSub a b c s
  | .mul a b c => Sys2Proof.Machine.execMul a b c s
  | .div a b c => Sys2Proof.Machine.execDiv a b c s
  | .and a b c => Sys2Proof.Machine.execAnd a b c s
  | .or a b c => Sys2Proof.Machine.execOr a b c s
  | .xor a b c => Sys2Proof.Machine.execXor a b c s
  | .addi a b c => Sys2Proof.Machine.execAddi a b c s
  | .subi a b c => Sys2Proof.Machine.execSubi a b c s
  | .muli a b c => Sys2Proof.Machine.execMuli a b c s
  | .divi a b c => Sys2Proof.Machine.execDivi a b c s
  | .andi a b c => Sys2Proof.Machine.execAndi a b c s
  | .ori a b c => Sys2Proof.Machine.execOri a b c s
  | .xori a b c => Sys2Proof.Machine.execXori a b c s
  | .beq a b c => Sys2Proof.Machine.execBeq a b c s
  | .bne a b c => Sys2Proof.Machine.execBne a b c s
  | .blt a b c => Sys2Proof.Machine.execBlt a b c s
  | .bgt a b c => Sys2Proof.Machine.execBgt a b c s
  | .lw a b c => Sys2Proof.Machine.execLw a b c s
  | .sw a b c => Sys2Proof.Machine.execSw a b c s
  | .illegalOp0 a b c f => Sys2Proof.Machine.execIllegalOp0 a b c f s
  | .illegalOp6 a b c => Sys2Proof.Machine.execIllegalOp6 a b c s
  | .illegalOp7 a b c => Sys2Proof.Machine.execIllegalOp7 a b c s
  | .illegalOp1Fn0 a b c => Sys2Proof.Machine.execIllegalOp1Fn0 a b c s
  | .illegalOp2Fn0 a b c => Sys2Proof.Machine.execIllegalOp2Fn0 a b c s
  | .illegalOp3Fn0 a b c => Sys2Proof.Machine.execIllegalOp3Fn0 a b c s
  | .illegalOp3Fn5 a b c => Sys2Proof.Machine.execIllegalOp3Fn5 a b c s
  | .illegalOp3Fn6Fn7 a b c f => Sys2Proof.Machine.execIllegalOp3Fn6Fn7 a b c f s

end Sys2Proof.Machine
end

