-- ==== Sys2Proof/Machine/Output.lean ====
section
/-! DEFINITION. What the CORE puts out to the host: the trace record of a completed cycle, the codes of a fault, the exit
status (45_fetch_step R217 to R219, 60_exceptions R233). -/

namespace Sys2Proof.Machine

/-- The trace record of the instruction `i` whose cycle ended in the state `s` (45_fetch_step R218): the pc is the new one
(90_conflicts C6). -/
def traceRecord (i : Instr) (s : State) : TraceRecord where
  newPc := s.pc
  decoded := i.fields
  regs := s.regs
  mem := s.mem.dump

/-- Puts out the trace record after a completed cycle, and only then: a cycle that faulted leaves the status `Faulted` and
emits none (45_fetch_step R217, R218). -/
def emitTrace (i : Instr) (s : State) : State :=
  match s.status with
  | .running => { s with out := .trace (traceRecord i s) :: s.out }
  | .halted => s
  | .faulted _ => s

/-- The end of a cycle whose line decoded to `i` (45_fetch_step R211): the Executor's state, with its trace record. -/
def commit (i : Instr) (r : Result) : Result :=
  match r with
  | .next s => .next (emitTrace i s)
  | .fault f => .fault f
  | .refused f => .refused f

/-- The cause code of 60_exceptions R233 (decision D14). -/
def Cause.code : Cause → Nat
  | .unrecognizedOpcode => 1
  | .registerIndexOutOfBounds => 2
  | .unrecognizedFunction => 3
  | .memoryAddressOutOfBounds => 4
  | .divisionByZero => 5
  | .memoryWordOverrun => 6

/-- The fault kind code of a run status (60_exceptions R233): 0 none, 1 `DecodeError`, 2 `ExecutionError`. -/
def RunStatus.kindCode : RunStatus → Nat
  | .running => 0
  | .halted => 0
  | .faulted (.decodeError _) => 1
  | .faulted (.executionError _) => 2

/-- The cause code of a run status (60_exceptions R233): 0 for none and for `MalformedLine`. -/
def RunStatus.causeCode : RunStatus → Nat
  | .running => 0
  | .halted => 0
  | .faulted (.decodeError _) => 0
  | .faulted (.executionError c) => c.code

/-- The exit status of a run (45_fetch_step R219). The non-zero value is not given and not modelled (U3; entry 25). -/
inductive ExitStatus where
  | zero
  | nonZero
  deriving DecidableEq, Repr

/-- The exit status read from the run status (45_fetch_step R219, decision D16); none while the run goes on. -/
def RunStatus.exitStatus : RunStatus → Option ExitStatus
  | .running => none
  | .halted => some .zero
  | .faulted _ => some .nonZero

/-- The trace records among outputs, in the same order. -/
def traceRecords (o : List Output) : List TraceRecord :=
  match o with
  | [] => []
  | .trace r :: rest => r :: traceRecords rest
  | .report _ :: rest => traceRecords rest

/-- The fault reports among outputs, in the same order. -/
def faultReports (o : List Output) : List FaultReport :=
  match o with
  | [] => []
  | .trace _ :: rest => faultReports rest
  | .report r :: rest => r :: faultReports rest

end Sys2Proof.Machine
end

