-- ==== Sys2Proof/Machine/Fetch.lean ====
section
/-! DEFINITION. Fetching a line of the program store (10_state R31, 45_fetch_step R213), and placing one there. -/

namespace Sys2Proof.Machine

/-- The bounds check and the fetch (45_fetch_step R211, R213): the line at `pc` when `pc < N`, none when the pc is out of
range. The lower bound `0 <= pc` always holds (10_state R26). -/
def fetch (s : State) : Option Line :=
  s.program[s.pc]?

/-- What a store word that a program does not fill holds in `placeLine`: the all-zero canonical line (30_encoding R92: an
erased word), which faults if it is ever executed. -/
def blankLine : Line :=
  lineOfWord 0

/-- The program with `line` at index `k`; lines that this adds before `k` are `blankLine`. -/
def placeLine (program : List Line) (k : Nat) (line : Line) : List Line :=
  match program, k with
  | [], 0 => [line]
  | _ :: rest, 0 => line :: rest
  | [], k + 1 => blankLine :: placeLine [] k line
  | l :: rest, k + 1 => l :: placeLine rest k line

/-- The state with `line` where the next step fetches and the run status `Running`, so that the step runs it (entry 24). -/
def State.withLine (s : State) (line : Line) : State :=
  { s with program := placeLine s.program s.pc line, status := .running }

end Sys2Proof.Machine
end

