-- ==== Sys2Proof/Machine/Launch.lean ====
section
/-! DEFINITION. What the host can do to the machine before a run (45_fetch_step R216, 70_reset_and_hazards R270 to R272).
These are no steps: the host does nothing during a run. -/

namespace Sys2Proof.Machine

/-- The reset input (70_reset_and_hazards R270, R271): every piece of state at its reset value; the program store is the
host's and is kept (10_state R36). It leaves every status, mid run too (45_fetch_step R214), and the new run knows nothing of
the one before. The signal's polarity and synchrony are not modelled (decision D15, entry 19). -/
def resetRun (s : State) : State :=
  { State.reset with program := s.program }

/-- The launch state of a program (70_reset_and_hazards R272): the reset state with the program placed. -/
def load (program : List Line) : State :=
  { State.reset with program := program }

/-- The launch state with the initial registers and memory as arguments (10_state R36, decision D6: `INIT_REGS`,
`INIT_MEM`), for claims that do not rely on zeros. -/
def launch (regs : Vector Word 32) (mem : Vector Byte 32) (program : List Line) : State :=
  { load program with regs := regs, mem := Memory.ofBytes mem }

/-- The hardware form of the program store (decisions D1, D7): 33-bit words, at most `NMAX` of them; a longer program is
refused (93_implementation_defined U11). -/
def loadWords (words : List (BitVec Config.ilen)) : Option State :=
  if words.length ≤ Config.nmax then some (load (words.map fun w => lineOfWord w.toNat)) else none

end Sys2Proof.Machine
end

