-- ==== Sys2Proof/Machine/Step.lean ====
section
/-! DEFINITION. One cycle of the CORE (45_fetch_step R211). -/

namespace Sys2Proof.Machine

/-- One cycle (45_fetch_step R211): with the run status `Running`, the pc bounds check, the fetch, the decoding, the
execution and the outputs. In `Halted` and `Faulted` no cycle runs and all state is held (10_state R33, 45_fetch_step R220;
entry 5). -/
def step (s : State) : Host.Outcome State Fault Refusal :=
  match s.status with
  | .halted => .next s
  | .faulted _ => .next s
  | .running =>
    match fetch s with
    | none => .next (halt s)
    | some line =>
      match decode line with
      | .error (.malformedLine l) => .next (takeFault (.decodeError l) s)
      | .ok i => commit i (exec i s)

/-- The state with the canonical line of the 33-bit word `w` where the next step fetches, and `Running` (entry 24). `nbits`
adds nothing: every line of the table has all its 33 bits. -/
def State.withFetchWord (s : State) (_nbits w : Nat) : State :=
  s.withLine (lineOfWord w)

end Sys2Proof.Machine
end

