-- ==== Sys2Proof/Safety.lean ====
section
/-! DEFINITION. The terms the statements use: the invariant of the machine, what it means for a state to be in the hardware
form, and the reading of a decoded instruction against the rules. -/

namespace Sys2Proof.Machine

/-- In every reachable state `pc <= max(N, 4095)` (10_state R26). -/
def State.PcBounded (s : State) : Prop :=
  s.pc ≤ max s.program.length Config.maxTarget

/-- The run status is what the unchanged pc and program store account for (45_fetch_step R214, 60_exceptions R235): halted only
with the pc out of range; a `DecodeError` carries the line at the pc, which does not decode; an `ExecutionError` is the one
that the instruction at the pc raises in this state, taken back to `Running` and without its report. -/
def State.StatusExplained (s : State) : Prop :=
  match s.status with
  | .running => True
  | .halted => s.program.length ≤ s.pc
  | .faulted (.decodeError line) =>
    s.program[s.pc]? = some line ∧ decode line = .error (.malformedLine line)
  | .faulted (.executionError _) =>
    ∃ line i, s.program[s.pc]? = some line ∧ decode line = .ok i ∧
      exec i { s with status := .running, out := s.out.tail } = .next s

/-- One fault report in a faulted run, naming the fault, the pc and its line, and none in any other (45_fetch_step R217). -/
def State.ReportedOnce (s : State) : Prop :=
  faultReports s.out =
    match s.status with
    | .running => []
    | .halted => []
    | .faulted info => [{ info := info, pc := s.pc, line := s.program[s.pc]? }]

/-- The newest trace record shows the pc, the registers and the memory that the state still has: a halt or a fault changes
none of them (45_fetch_step R212, R218). -/
def State.TraceCurrent (s : State) : Prop :=
  ∀ r, (traceRecords s.out).head? = some r → r.newPc = s.pc ∧ r.regs = s.regs ∧ r.mem = s.mem.dump

/-- The invariant of the machine: it holds at reset, and every step keeps it. -/
structure State.Inv (s : State) : Prop where
  memory : s.mem.wf = true
  pcBounded : s.PcBounded
  explained : s.StatusExplained
  reported : s.ReportedOnce
  trace : s.TraceCurrent

/-- The hardware form of the machine (00_scope R6, 10_state R26): at most `NMAX` lines, all canonical, and a pc that the 13-bit
register holds. -/
structure State.HardwareForm (s : State) : Prop where
  length : s.program.length ≤ Config.nmax
  canonical : ∀ line ∈ s.program, canonicalLine line = true
  pc : s.pc ≤ Config.nmax

/-- `x[n]` for a field `n` that has passed the register check; 0 for one that has not, which no statement reads. -/
def State.regAt (s : State) (n : Nat) : Word :=
  s.regs[n]?.getD 0

/-- The condition of the branch with the given `function` on the compared values (43_branch R170). -/
def BranchTaken (function : Nat) (a b : Word) : Prop :=
  (function = 1 ∧ a.toNat = b.toNat) ∨ (function = 2 ∧ a.toNat ≠ b.toNat) ∨
    (function = 3 ∧ a.toNat < b.toNat) ∨ (function = 4 ∧ b.toNat < a.toNat)

/-- Some character of `l[a:b)` is not binary (40_decoder R113). -/
def NonBinaryIn (l : Line) (a b : Nat) : Prop :=
  ∃ p c, a ≤ p ∧ p < b ∧ l[p]? = some c ∧ c ≠ '0' ∧ c ≠ '1'

/-- The run status after the Executor has run on decoded fields, by the order of checks of 60_exceptions R236, steps 3 to 6
(decision D13 for the order of the last three; entry 17). -/
def statusByPriority (d : Decoded) (s : State) : RunStatus :=
  if d.opCode = 0 ∨ 6 ≤ d.opCode then .faulted (.executionError .unrecognizedOpcode)
  else if 32 ≤ d.arg1 ∨ 32 ≤ d.arg2 ∨ (d.opCode = 1 ∧ 32 ≤ d.arg3) then
    .faulted (.executionError .registerIndexOutOfBounds)
  else if (d.opCode ≤ 3 ∧ d.function = 0) ∨ (d.opCode = 3 ∧ 4 < d.function) then
    .faulted (.executionError .unrecognizedFunction)
  else if (d.opCode = 1 ∧ d.function = 4 ∧ (s.regAt d.arg3).toNat = 0) ∨
      (d.opCode = 2 ∧ d.function = 4 ∧ d.arg3 = 0) then
    .faulted (.executionError .divisionByZero)
  else if 4 ≤ d.opCode ∧ 32 ≤ (s.regAt d.arg2).toNat + d.arg3 then
    .faulted (.executionError .memoryAddressOutOfBounds)
  else if 4 ≤ d.opCode ∧ 28 < (s.regAt d.arg2).toNat + d.arg3 then
    .faulted (.executionError .memoryWordOverrun)
  else .running

end Sys2Proof.Machine
end

