-- ==== Sys2Proof/Certificates/Slice0/Obligations.lean ====
section
/-! DEFINITION. The statements for the provers, from the numbered rules of spec/. -/

open Sys2Proof Sys2Proof.Machine

/-- For registers below 32 the canonical line of ADD decodes to it, and exec answers the state with only x[arg1]
replaced, by the sum modulo 2^32 of x[arg2] and x[arg3], and pc + 1; if a register field is 32 or more it takes
ExecutionError(RegisterIndexOutOfBounds). (R131.) -/
def Obligations.AddWritesSum : Prop :=
  ∀ (a b c : Nat) (s : State),
    (∀ (ha : a < 32) (hb : b < 32) (hc : c < 32),
      decode (bits 3 1 ++ bits 6 a ++ bits 6 b ++ bits 6 c ++ bits 6 0 ++ bits 3 1 ++ bits 3 0) = .ok (.add a b c) ∧
      ∃ v : Word, v.toNat = (s.regs[b].toNat + s.regs[c].toNat) % 2 ^ 32 ∧
        exec (.add a b c) s = .next { s with regs := s.regs.set a v ha, pc := s.pc + 1 }) ∧
    (32 ≤ a ∨ 32 ≤ b ∨ 32 ≤ c →
      exec (.add a b c) s = .next (takeFault (.executionError .registerIndexOutOfBounds) s))

/-- For registers below 32 the canonical line of SUB decodes to it, and exec answers the state with only x[arg1]
replaced, by the difference, first operand minus second, modulo 2^32 of x[arg2] and x[arg3], and pc + 1; if a
register field is 32 or more it takes ExecutionError(RegisterIndexOutOfBounds). (R132.) -/
def Obligations.SubWritesDifference : Prop :=
  ∀ (a b c : Nat) (s : State),
    (∀ (ha : a < 32) (hb : b < 32) (hc : c < 32),
      decode (bits 3 1 ++ bits 6 a ++ bits 6 b ++ bits 6 c ++ bits 6 0 ++ bits 3 2 ++ bits 3 0) = .ok (.sub a b c) ∧
      ∃ v : Word, (v.toNat : Int) = ((s.regs[b].toNat : Int) - s.regs[c].toNat) % 2 ^ 32 ∧
        exec (.sub a b c) s = .next { s with regs := s.regs.set a v ha, pc := s.pc + 1 }) ∧
    (32 ≤ a ∨ 32 ≤ b ∨ 32 ≤ c →
      exec (.sub a b c) s = .next (takeFault (.executionError .registerIndexOutOfBounds) s))

/-- For registers below 32 the canonical line of MUL decodes to it, and exec answers the state with only x[arg1]
replaced, by the product modulo 2^32 of x[arg2] and x[arg3], and pc + 1; if a register field is 32 or more it takes
ExecutionError(RegisterIndexOutOfBounds). (R133.) -/
def Obligations.MulWritesProduct : Prop :=
  ∀ (a b c : Nat) (s : State),
    (∀ (ha : a < 32) (hb : b < 32) (hc : c < 32),
      decode (bits 3 1 ++ bits 6 a ++ bits 6 b ++ bits 6 c ++ bits 6 0 ++ bits 3 3 ++ bits 3 0) = .ok (.mul a b c) ∧
      ∃ v : Word, v.toNat = s.regs[b].toNat * s.regs[c].toNat % 2 ^ 32 ∧
        exec (.mul a b c) s = .next { s with regs := s.regs.set a v ha, pc := s.pc + 1 }) ∧
    (32 ≤ a ∨ 32 ≤ b ∨ 32 ≤ c →
      exec (.mul a b c) s = .next (takeFault (.executionError .registerIndexOutOfBounds) s))

/-- For registers below 32 the canonical line of DIV decodes to it; with x[arg3] not 0 exec answers the state with only
x[arg1] replaced, by the truncating unsigned quotient of x[arg2] by x[arg3], and pc + 1; with x[arg3] = 0 it takes
ExecutionError(DivisionByZero), the spec's decision D8 (entry 12); with a register field of 32 or more
RegisterIndexOutOfBounds. (41_alu_reg.md section 2, DIV, 92_eei_decisions.md D8, D13.) -/
def Obligations.DivWritesQuotient : Prop :=
  ∀ (a b c : Nat) (s : State),
    (∀ (ha : a < 32) (hb : b < 32) (hc : c < 32),
      decode (bits 3 1 ++ bits 6 a ++ bits 6 b ++ bits 6 c ++ bits 6 0 ++ bits 3 4 ++ bits 3 0) = .ok (.div a b c) ∧
      (s.regs[c].toNat ≠ 0 → ∃ v : Word, v.toNat = s.regs[b].toNat / s.regs[c].toNat ∧
        exec (.div a b c) s = .next { s with regs := s.regs.set a v ha, pc := s.pc + 1 }) ∧
      (s.regs[c].toNat = 0 → exec (.div a b c) s = .next (takeFault (.executionError .divisionByZero) s))) ∧
    (32 ≤ a ∨ 32 ≤ b ∨ 32 ≤ c →
      exec (.div a b c) s = .next (takeFault (.executionError .registerIndexOutOfBounds) s))

/-- For registers below 32 the canonical line of AND decodes to it, and exec answers the state with only x[arg1]
replaced, by the bitwise and of x[arg2] and x[arg3], and pc + 1; if a register field is 32 or more it takes
ExecutionError(RegisterIndexOutOfBounds). (R135.) -/
def Obligations.AndWritesAnd : Prop :=
  ∀ (a b c : Nat) (s : State),
    (∀ (ha : a < 32) (hb : b < 32) (hc : c < 32),
      decode (bits 3 1 ++ bits 6 a ++ bits 6 b ++ bits 6 c ++ bits 6 0 ++ bits 3 5 ++ bits 3 0) = .ok (.and a b c) ∧
      ∃ v : Word, (∀ k < 32, v.getLsbD k = (s.regs[b].getLsbD k && s.regs[c].getLsbD k)) ∧
        exec (.and a b c) s = .next { s with regs := s.regs.set a v ha, pc := s.pc + 1 }) ∧
    (32 ≤ a ∨ 32 ≤ b ∨ 32 ≤ c →
      exec (.and a b c) s = .next (takeFault (.executionError .registerIndexOutOfBounds) s))

/-- For registers below 32 the canonical line of OR decodes to it, and exec answers the state with only x[arg1]
replaced, by the bitwise or of x[arg2] and x[arg3], and pc + 1; if a register field is 32 or more it takes
ExecutionError(RegisterIndexOutOfBounds). (R136.) -/
def Obligations.OrWritesOr : Prop :=
  ∀ (a b c : Nat) (s : State),
    (∀ (ha : a < 32) (hb : b < 32) (hc : c < 32),
      decode (bits 3 1 ++ bits 6 a ++ bits 6 b ++ bits 6 c ++ bits 6 0 ++ bits 3 6 ++ bits 3 0) = .ok (.or a b c) ∧
      ∃ v : Word, (∀ k < 32, v.getLsbD k = (s.regs[b].getLsbD k || s.regs[c].getLsbD k)) ∧
        exec (.or a b c) s = .next { s with regs := s.regs.set a v ha, pc := s.pc + 1 }) ∧
    (32 ≤ a ∨ 32 ≤ b ∨ 32 ≤ c →
      exec (.or a b c) s = .next (takeFault (.executionError .registerIndexOutOfBounds) s))

/-- For registers below 32 the canonical line of XOR decodes to it, and exec answers the state with only x[arg1]
replaced, by the bitwise exclusive or of x[arg2] and x[arg3], and pc + 1; if a register field is 32 or more it takes
ExecutionError(RegisterIndexOutOfBounds). (R137.) -/
def Obligations.XorWritesXor : Prop :=
  ∀ (a b c : Nat) (s : State),
    (∀ (ha : a < 32) (hb : b < 32) (hc : c < 32),
      decode (bits 3 1 ++ bits 6 a ++ bits 6 b ++ bits 6 c ++ bits 6 0 ++ bits 3 7 ++ bits 3 0) = .ok (.xor a b c) ∧
      ∃ v : Word, (∀ k < 32, v.getLsbD k = (s.regs[b].getLsbD k ^^ s.regs[c].getLsbD k)) ∧
        exec (.xor a b c) s = .next { s with regs := s.regs.set a v ha, pc := s.pc + 1 }) ∧
    (32 ≤ a ∨ 32 ≤ b ∨ 32 ≤ c →
      exec (.xor a b c) s = .next (takeFault (.executionError .registerIndexOutOfBounds) s))

/-- For registers below 32 and an immediate below 4096 the canonical line of ADDI decodes to it, and exec answers the
state with only x[arg1] replaced, by the sum modulo 2^32 of x[arg2] and the immediate, and pc + 1; if arg1 or arg2
is 32 or more it takes ExecutionError(RegisterIndexOutOfBounds). (R151.) -/
def Obligations.AddiWritesSum : Prop :=
  ∀ (a b c : Nat) (s : State),
    (∀ (ha : a < 32) (hb : b < 32), c < 4096 →
      decode (bits 3 2 ++ bits 6 a ++ bits 6 b ++ bits 12 c ++ bits 3 1 ++ bits 3 0) = .ok (.addi a b c) ∧
      ∃ v : Word, v.toNat = (s.regs[b].toNat + c) % 2 ^ 32 ∧
        exec (.addi a b c) s = .next { s with regs := s.regs.set a v ha, pc := s.pc + 1 }) ∧
    (32 ≤ a ∨ 32 ≤ b →
      exec (.addi a b c) s = .next (takeFault (.executionError .registerIndexOutOfBounds) s))

/-- For registers below 32 and an immediate below 4096 the canonical line of SUBI decodes to it, and exec answers the
state with only x[arg1] replaced, by the difference, first operand minus second, modulo 2^32 of x[arg2] and the
immediate, and pc + 1; if arg1 or arg2 is 32 or more it takes ExecutionError(RegisterIndexOutOfBounds). (R152.) -/
def Obligations.SubiWritesDifference : Prop :=
  ∀ (a b c : Nat) (s : State),
    (∀ (ha : a < 32) (hb : b < 32), c < 4096 →
      decode (bits 3 2 ++ bits 6 a ++ bits 6 b ++ bits 12 c ++ bits 3 2 ++ bits 3 0) = .ok (.subi a b c) ∧
      ∃ v : Word, (v.toNat : Int) = ((s.regs[b].toNat : Int) - c) % 2 ^ 32 ∧
        exec (.subi a b c) s = .next { s with regs := s.regs.set a v ha, pc := s.pc + 1 }) ∧
    (32 ≤ a ∨ 32 ≤ b →
      exec (.subi a b c) s = .next (takeFault (.executionError .registerIndexOutOfBounds) s))

/-- For registers below 32 and an immediate below 4096 the canonical line of MULI decodes to it, and exec answers the
state with only x[arg1] replaced, by the product modulo 2^32 of x[arg2] and the immediate, and pc + 1; if arg1 or
arg2 is 32 or more it takes ExecutionError(RegisterIndexOutOfBounds). (R153.) -/
def Obligations.MuliWritesProduct : Prop :=
  ∀ (a b c : Nat) (s : State),
    (∀ (ha : a < 32) (hb : b < 32), c < 4096 →
      decode (bits 3 2 ++ bits 6 a ++ bits 6 b ++ bits 12 c ++ bits 3 3 ++ bits 3 0) = .ok (.muli a b c) ∧
      ∃ v : Word, v.toNat = s.regs[b].toNat * c % 2 ^ 32 ∧
        exec (.muli a b c) s = .next { s with regs := s.regs.set a v ha, pc := s.pc + 1 }) ∧
    (32 ≤ a ∨ 32 ≤ b →
      exec (.muli a b c) s = .next (takeFault (.executionError .registerIndexOutOfBounds) s))

/-- For registers below 32 and an immediate below 4096 the canonical line of DIVI decodes to it; with the immediate not
0 exec answers the state with only x[arg1] replaced, by the truncating quotient of x[arg2] by the immediate, and pc
+ 1; with 0 it takes ExecutionError(DivisionByZero), the spec's decision D8 (entry 12); with arg1 or arg2 of 32 or
more RegisterIndexOutOfBounds. (42_alu_imm.md section 2, DIVI, 92_eei_decisions.md D8, D13.) -/
def Obligations.DiviWritesQuotient : Prop :=
  ∀ (a b c : Nat) (s : State),
    (∀ (ha : a < 32) (hb : b < 32), c < 4096 →
      decode (bits 3 2 ++ bits 6 a ++ bits 6 b ++ bits 12 c ++ bits 3 4 ++ bits 3 0) = .ok (.divi a b c) ∧
      (c ≠ 0 → ∃ v : Word, v.toNat = s.regs[b].toNat / c ∧
        exec (.divi a b c) s = .next { s with regs := s.regs.set a v ha, pc := s.pc + 1 }) ∧
      (c = 0 → exec (.divi a b c) s = .next (takeFault (.executionError .divisionByZero) s))) ∧
    (32 ≤ a ∨ 32 ≤ b →
      exec (.divi a b c) s = .next (takeFault (.executionError .registerIndexOutOfBounds) s))

/-- For registers below 32 and an immediate below 4096 the canonical line of ANDI decodes to it, and exec answers the
state with only x[arg1] replaced, by the bitwise and of x[arg2] and the immediate, and pc + 1; if arg1 or arg2 is 32
or more it takes ExecutionError(RegisterIndexOutOfBounds). (R155.) -/
def Obligations.AndiWritesAnd : Prop :=
  ∀ (a b c : Nat) (s : State),
    (∀ (ha : a < 32) (hb : b < 32), c < 4096 →
      decode (bits 3 2 ++ bits 6 a ++ bits 6 b ++ bits 12 c ++ bits 3 5 ++ bits 3 0) = .ok (.andi a b c) ∧
      ∃ v : Word, (∀ k < 32, v.getLsbD k = (s.regs[b].getLsbD k && c.testBit k)) ∧
        exec (.andi a b c) s = .next { s with regs := s.regs.set a v ha, pc := s.pc + 1 }) ∧
    (32 ≤ a ∨ 32 ≤ b →
      exec (.andi a b c) s = .next (takeFault (.executionError .registerIndexOutOfBounds) s))

/-- For registers below 32 and an immediate below 4096 the canonical line of ORI decodes to it, and exec answers the
state with only x[arg1] replaced, by the bitwise or of x[arg2] and the immediate, and pc + 1; if arg1 or arg2 is 32
or more it takes ExecutionError(RegisterIndexOutOfBounds). (R156.) -/
def Obligations.OriWritesOr : Prop :=
  ∀ (a b c : Nat) (s : State),
    (∀ (ha : a < 32) (hb : b < 32), c < 4096 →
      decode (bits 3 2 ++ bits 6 a ++ bits 6 b ++ bits 12 c ++ bits 3 6 ++ bits 3 0) = .ok (.ori a b c) ∧
      ∃ v : Word, (∀ k < 32, v.getLsbD k = (s.regs[b].getLsbD k || c.testBit k)) ∧
        exec (.ori a b c) s = .next { s with regs := s.regs.set a v ha, pc := s.pc + 1 }) ∧
    (32 ≤ a ∨ 32 ≤ b →
      exec (.ori a b c) s = .next (takeFault (.executionError .registerIndexOutOfBounds) s))

/-- For registers below 32 and an immediate below 4096 the canonical line of XORI decodes to it, and exec answers the
state with only x[arg1] replaced, by the bitwise exclusive or of x[arg2] and the immediate, and pc + 1; if arg1 or
arg2 is 32 or more it takes ExecutionError(RegisterIndexOutOfBounds). (R157.) -/
def Obligations.XoriWritesXor : Prop :=
  ∀ (a b c : Nat) (s : State),
    (∀ (ha : a < 32) (hb : b < 32), c < 4096 →
      decode (bits 3 2 ++ bits 6 a ++ bits 6 b ++ bits 12 c ++ bits 3 7 ++ bits 3 0) = .ok (.xori a b c) ∧
      ∃ v : Word, (∀ k < 32, v.getLsbD k = (s.regs[b].getLsbD k ^^ c.testBit k)) ∧
        exec (.xori a b c) s = .next { s with regs := s.regs.set a v ha, pc := s.pc + 1 }) ∧
    (32 ≤ a ∨ 32 ≤ b →
      exec (.xori a b c) s = .next (takeFault (.executionError .registerIndexOutOfBounds) s))

/-- For registers below 32 and a target below 4096 the canonical line of BEQ decodes to it, and exec answers the state
with only the pc replaced, by arg3 if x[arg1] equals x[arg2] and by pc + 1 if not; if arg1 or arg2 is 32 or more it
takes ExecutionError(RegisterIndexOutOfBounds). (R171.) -/
def Obligations.BeqJumpsIfEqual : Prop :=
  ∀ (a b c : Nat) (s : State),
    (∀ (ha : a < 32) (hb : b < 32), c < 4096 →
      decode (bits 3 3 ++ bits 6 a ++ bits 6 b ++ bits 12 c ++ bits 3 1 ++ bits 3 0) = .ok (.beq a b c) ∧
      exec (.beq a b c) s = .next { s with pc := if s.regs[a].toNat = s.regs[b].toNat then c else s.pc + 1 }) ∧
    (32 ≤ a ∨ 32 ≤ b →
      exec (.beq a b c) s = .next (takeFault (.executionError .registerIndexOutOfBounds) s))

/-- For registers below 32 and a target below 4096 the canonical line of BNE decodes to it, and exec answers the state
with only the pc replaced, by arg3 if x[arg1] differs from x[arg2] and by pc + 1 if not; if arg1 or arg2 is 32 or
more it takes ExecutionError(RegisterIndexOutOfBounds). (R172.) -/
def Obligations.BneJumpsIfNotEqual : Prop :=
  ∀ (a b c : Nat) (s : State),
    (∀ (ha : a < 32) (hb : b < 32), c < 4096 →
      decode (bits 3 3 ++ bits 6 a ++ bits 6 b ++ bits 12 c ++ bits 3 2 ++ bits 3 0) = .ok (.bne a b c) ∧
      exec (.bne a b c) s = .next { s with pc := if s.regs[a].toNat ≠ s.regs[b].toNat then c else s.pc + 1 }) ∧
    (32 ≤ a ∨ 32 ≤ b →
      exec (.bne a b c) s = .next (takeFault (.executionError .registerIndexOutOfBounds) s))

/-- For registers below 32 and a target below 4096 the canonical line of BLT decodes to it, and exec answers the state
with only the pc replaced, by arg3 if x[arg1] is less than x[arg2], unsigned and by pc + 1 if not; if arg1 or arg2
is 32 or more it takes ExecutionError(RegisterIndexOutOfBounds). The unsigned reading is the spec's decision D18
(entry 21). (43_branch.md section 2, BLT, 92_eei_decisions.md D18.) -/
def Obligations.BltJumpsIfLess : Prop :=
  ∀ (a b c : Nat) (s : State),
    (∀ (ha : a < 32) (hb : b < 32), c < 4096 →
      decode (bits 3 3 ++ bits 6 a ++ bits 6 b ++ bits 12 c ++ bits 3 3 ++ bits 3 0) = .ok (.blt a b c) ∧
      exec (.blt a b c) s = .next { s with pc := if s.regs[a].toNat < s.regs[b].toNat then c else s.pc + 1 }) ∧
    (32 ≤ a ∨ 32 ≤ b →
      exec (.blt a b c) s = .next (takeFault (.executionError .registerIndexOutOfBounds) s))

/-- For registers below 32 and a target below 4096 the canonical line of BGT decodes to it, and exec answers the state
with only the pc replaced, by arg3 if x[arg1] is greater than x[arg2], unsigned and by pc + 1 if not; if arg1 or
arg2 is 32 or more it takes ExecutionError(RegisterIndexOutOfBounds). The unsigned reading is the spec's decision
D18 (entry 21). (43_branch.md section 2, BGT, 92_eei_decisions.md D18.) -/
def Obligations.BgtJumpsIfGreater : Prop :=
  ∀ (a b c : Nat) (s : State),
    (∀ (ha : a < 32) (hb : b < 32), c < 4096 →
      decode (bits 3 3 ++ bits 6 a ++ bits 6 b ++ bits 12 c ++ bits 3 4 ++ bits 3 0) = .ok (.bgt a b c) ∧
      exec (.bgt a b c) s = .next { s with pc := if s.regs[b].toNat < s.regs[a].toNat then c else s.pc + 1 }) ∧
    (32 ≤ a ∨ 32 ≤ b →
      exec (.bgt a b c) s = .next (takeFault (.executionError .registerIndexOutOfBounds) s))

/-- For registers below 32 and an offset below 4096 every canonical line of LW decodes to it, whatever its last six
characters; with x[arg2] + arg3 at most 28 exec answers the state with only x[arg1] replaced, by the big-endian word
at that address, and pc + 1. With the exact sum 29 to 31 it takes MemoryWordOverrun (decision D11), with 32 or more
MemoryAddressOutOfBounds (no wrap, decision D12), with arg1 or arg2 of 32 or more RegisterIndexOutOfBounds (D10,
D13). These decisions are the spec's own (entries 14 to 17). (44_load_store.md section 2, LW, 44_load_store.md
section 1, 20_memory.md section 2, 92_eei_decisions.md D10, D11, D12, D13.) -/
def Obligations.LwLoadsBigEndianWord : Prop :=
  ∀ (a b c x : Nat) (s : State),
    (a < 32 → b < 32 → c < 4096 → decode (bits 3 4 ++ bits 6 a ++ bits 6 b ++ bits 12 c ++ bits 6 x) = .ok (.lw a b c)) ∧
    (∀ (ha : a < 32) (hb : b < 32), s.regs[b].toNat + c ≤ 28 →
      ∃ v : Word,
        v.toNat = (s.mem.read (s.regs[b].toNat + c)).toNat * 2 ^ 24 + (s.mem.read (s.regs[b].toNat + c + 1)).toNat * 2 ^ 16 +
          (s.mem.read (s.regs[b].toNat + c + 2)).toNat * 2 ^ 8 + (s.mem.read (s.regs[b].toNat + c + 3)).toNat ∧
        exec (.lw a b c) s = .next { s with regs := s.regs.set a v ha, pc := s.pc + 1 }) ∧
    (∀ (_ : a < 32) (hb : b < 32), 29 ≤ s.regs[b].toNat + c → s.regs[b].toNat + c ≤ 31 →
      exec (.lw a b c) s = .next (takeFault (.executionError .memoryWordOverrun) s)) ∧
    (∀ (_ : a < 32) (hb : b < 32), 32 ≤ s.regs[b].toNat + c →
      exec (.lw a b c) s = .next (takeFault (.executionError .memoryAddressOutOfBounds) s)) ∧
    (32 ≤ a ∨ 32 ≤ b →
      exec (.lw a b c) s = .next (takeFault (.executionError .registerIndexOutOfBounds) s))

/-- For registers below 32 and an offset below 4096 every canonical line of SW decodes to it, whatever its last six
characters; with x[arg2] + arg3 at most 28 exec answers a state in which only memory and pc differ, pc + 1, every
byte outside the four at that address as before, and, where memory is canonical, those four the bytes of x[arg1]
most significant first (the canonical form is the model's, entry 4). With the exact sum 29 to 31 it takes
MemoryWordOverrun (decision D11), with 32 or more MemoryAddressOutOfBounds (no wrap, decision D12), with arg1 or
arg2 of 32 or more RegisterIndexOutOfBounds (D10, D13). These decisions are the spec's own (entries 14 to 17).
(44_load_store.md section 2, SW, 44_load_store.md section 1, 20_memory.md section 2, 92_eei_decisions.md D10, D11,
D12, D13.) -/
def Obligations.SwStoresBigEndianWord : Prop :=
  ∀ (a b c x : Nat) (s : State),
    (a < 32 → b < 32 → c < 4096 → decode (bits 3 5 ++ bits 6 a ++ bits 6 b ++ bits 12 c ++ bits 6 x) = .ok (.sw a b c)) ∧
    (∀ (ha : a < 32) (hb : b < 32), s.regs[b].toNat + c ≤ 28 →
      ∃ m : Memory,
        exec (.sw a b c) s = .next { s with mem := m, pc := s.pc + 1 } ∧
        (∀ n, (n < s.regs[b].toNat + c ∨ s.regs[b].toNat + c + 3 < n) → m.read n = s.mem.read n) ∧
        (s.mem.wf = true → m.wf = true ∧
          ∀ k < 4, (m.read (s.regs[b].toNat + c + k)).toNat = s.regs[a].toNat / 2 ^ (8 * (3 - k)) % 256)) ∧
    (∀ (_ : a < 32) (hb : b < 32), 29 ≤ s.regs[b].toNat + c → s.regs[b].toNat + c ≤ 31 →
      exec (.sw a b c) s = .next (takeFault (.executionError .memoryWordOverrun) s)) ∧
    (∀ (_ : a < 32) (hb : b < 32), 32 ≤ s.regs[b].toNat + c →
      exec (.sw a b c) s = .next (takeFault (.executionError .memoryAddressOutOfBounds) s)) ∧
    (32 ≤ a ∨ 32 ≤ b →
      exec (.sw a b c) s = .next (takeFault (.executionError .registerIndexOutOfBounds) s))

/-- Every canonical line with op_code 0, 6 or 7 decodes to its illegal row, and executing it, with any fields, in any
state, takes ExecutionError(UnrecognizedOpcode). (30_encoding.md section 6, 60_exceptions.md section 3.) -/
def Obligations.UnrecognizedOpcodesFault : Prop :=
  ∀ (a b c f x : Nat) (s : State),
    (a < 64 → b < 64 → c < 4096 → f < 8 →
      decode (bits 3 0 ++ bits 6 a ++ bits 6 b ++ bits 12 c ++ bits 3 f ++ bits 3 x) = .ok (.illegalOp0 a b c f) ∧
      decode (bits 3 6 ++ bits 6 a ++ bits 6 b ++ bits 12 c ++ bits 6 x) = .ok (.illegalOp6 a b c) ∧
      decode (bits 3 7 ++ bits 6 a ++ bits 6 b ++ bits 12 c ++ bits 6 x) = .ok (.illegalOp7 a b c)) ∧
    exec (.illegalOp0 a b c f) s = .next (takeFault (.executionError .unrecognizedOpcode) s) ∧
    exec (.illegalOp6 a b c) s = .next (takeFault (.executionError .unrecognizedOpcode) s) ∧
    exec (.illegalOp7 a b c) s = .next (takeFault (.executionError .unrecognizedOpcode) s)

/-- Canonical lines of op_code 1 and 2 with function 0 decode to their illegal rows; executing one takes
UnrecognizedFunction if its register fields are below 32, and RegisterIndexOutOfBounds if one is not. That the
register check comes first is the spec's decision D13 (entry 17). (41_alu_reg.md section 3, 42_alu_imm.md section 3,
92_eei_decisions.md D13.) -/
def Obligations.AluFunctionZeroFaults : Prop :=
  ∀ (a b c : Nat) (s : State),
    (a < 64 → b < 64 → c < 64 →
      decode (bits 3 1 ++ bits 6 a ++ bits 6 b ++ bits 6 c ++ bits 6 0 ++ bits 3 0 ++ bits 3 0) =
        .ok (.illegalOp1Fn0 a b c)) ∧
    (a < 64 → b < 64 → c < 4096 →
      decode (bits 3 2 ++ bits 6 a ++ bits 6 b ++ bits 12 c ++ bits 3 0 ++ bits 3 0) = .ok (.illegalOp2Fn0 a b c)) ∧
    (a < 32 → b < 32 → c < 32 →
      exec (.illegalOp1Fn0 a b c) s = .next (takeFault (.executionError .unrecognizedFunction) s)) ∧
    (32 ≤ a ∨ 32 ≤ b ∨ 32 ≤ c →
      exec (.illegalOp1Fn0 a b c) s = .next (takeFault (.executionError .registerIndexOutOfBounds) s)) ∧
    (a < 32 → b < 32 →
      exec (.illegalOp2Fn0 a b c) s = .next (takeFault (.executionError .unrecognizedFunction) s)) ∧
    (32 ≤ a ∨ 32 ≤ b →
      exec (.illegalOp2Fn0 a b c) s = .next (takeFault (.executionError .registerIndexOutOfBounds) s))

/-- Canonical lines of op_code 3 with function 0, 5, 6 and 7 decode to their illegal rows; executing one takes
UnrecognizedFunction if arg1 and arg2 are below 32, and RegisterIndexOutOfBounds if not. For function 0 the fault is
the spec's decision D9 (entry 13), the order of the checks D13 (entry 17). (43_branch.md section 3,
92_eei_decisions.md D9, D13.) -/
def Obligations.BranchFunctionsOutsideRangeFault : Prop :=
  ∀ (a b c f : Nat) (s : State),
    (a < 64 → b < 64 → c < 4096 →
      decode (bits 3 3 ++ bits 6 a ++ bits 6 b ++ bits 12 c ++ bits 3 0 ++ bits 3 0) = .ok (.illegalOp3Fn0 a b c) ∧
      decode (bits 3 3 ++ bits 6 a ++ bits 6 b ++ bits 12 c ++ bits 3 5 ++ bits 3 0) = .ok (.illegalOp3Fn5 a b c) ∧
      (f = 6 ∨ f = 7 → decode (bits 3 3 ++ bits 6 a ++ bits 6 b ++ bits 12 c ++ bits 3 f ++ bits 3 0) =
        .ok (.illegalOp3Fn6Fn7 a b c f))) ∧
    (∀ i ∈ [Instr.illegalOp3Fn0 a b c, .illegalOp3Fn5 a b c, .illegalOp3Fn6Fn7 a b c f],
      (a < 32 → b < 32 → exec i s = .next (takeFault (.executionError .unrecognizedFunction) s)) ∧
      (32 ≤ a ∨ 32 ≤ b → exec i s = .next (takeFault (.executionError .registerIndexOutOfBounds) s)))

/-- The 33-bit words of ADD r3, r1, r2; ADDI r1, r0, 5; BEQ r1, r2, 100; LW r2, 5(r1) with ones in its ignored bits; SW
r10, 3(r9); and the all-ones word decode to the instructions they stand for. The 33-bit word and the numbering of
its bits are the spec's decision D1 (entries 7, 24). (40_decoder.md section 6, 95_test_vectors.md section 2,
92_eei_decisions.md D1.) -/
def Obligations.WrittenOutWordsDecode : Prop :=
  decodeTableWord 33 0b001_000011_000001_000010_000000_001_000 = some (.add 3 1 2) ∧
    decodeTableWord 33 0b010_000001_000000_000000000101_001_000 = some (.addi 1 0 5) ∧
    decodeTableWord 33 0b011_000001_000010_000001100100_001_000 = some (.beq 1 2 100) ∧
    decodeTableWord 33 0b100_000010_000001_000000000101_111111 = some (.lw 2 1 5) ∧
    decodeTableWord 33 0b101_001010_001001_000000000011_000000 = some (.sw 10 9 3) ∧
    decodeTableWord 33 0b111_111111_111111_111111111111_111111 = some (.illegalOp7 63 63 4095)

/-- For every instruction whose fields are within their widths, encode gives a canonical line (33 binary characters) and
decode of it answers that very instruction. (30_encoding.md sections 3, 5 and 6, 40_decoder.md section 2.) -/
def Obligations.EncodeDecodeRoundTrip : Prop :=
  ∀ i : Instr, i.wf = true → canonicalLine (encode i) = true ∧ decode (encode i) = .ok i

/-- If a line, of any length and any characters, decodes to an instruction, that instruction is well formed (every field
within its width, function 0 from op_code 4 up) and its fields are the five the extraction read from the line.
(40_decoder.md section 4.) -/
def Obligations.DecodedFieldsAreInRange : Prop :=
  ∀ (line : Line) (i : Instr), decode line = .ok i → i.wf = true ∧ decodeFields line = some i.fields

/-- A line fails to decode, with DecodeError carrying the line, exactly when: it has under 3 characters or a non-binary
one in [0:3); or under 15 or a non-binary one in [3:15); or its op_code is 1 and it has under 21 or a non-binary one
in [15:21); or its op_code is not 1 and it has under 27 or a non-binary one in [15:27); or its op_code is below 4
and one in [L-6:L-3) is non-binary. That a slice partly outside the line fails and that characters outside the
fields are ignored are the spec's decisions D3 and D5 (entries 9, 11). (40_decoder.md section 3, 92_eei_decisions.md
D3, D5.) -/
def Obligations.DecodeErrorExactlyOnUnreadableFields : Prop :=
  ∀ l : Line, decode l = .error (.malformedLine l) ↔
    (l.length < 3 ∨ NonBinaryIn l 0 3) ∨
    (l.length < 15 ∨ NonBinaryIn l 3 15) ∨
    (l.take 3 = ['0', '0', '1'] ∧ (l.length < 21 ∨ NonBinaryIn l 15 21)) ∨
    (l.take 3 ≠ ['0', '0', '1'] ∧ (l.length < 27 ∨ NonBinaryIn l 15 27)) ∨
    (l[0]? = some '0' ∧ NonBinaryIn l (l.length - 6) (l.length - 3))

/-- For every 33-bit word iw its canonical line decodes, with op_code bits 32:30, arg1 29:24, arg2 23:18, arg3 17:12 if
op_code is 1 else 17:6, and function 5:3 if op_code is below 4 else 0. The 33-bit word and the numbering of its bits
are the spec's decision D1 (entries 7, 24). (30_encoding.md section 3, 40_decoder.md section 3, 00_scope.md section
4, 92_eei_decisions.md D1.) -/
def Obligations.CanonicalFieldsAreBitSlices : Prop :=
  ∀ iw < 2 ^ 33, ∃ d, decodeFields (lineOfWord iw) = some d ∧ d.opCode = iw / 2 ^ 30 ∧ d.arg1 = iw / 2 ^ 24 % 64 ∧
    d.arg2 = iw / 2 ^ 18 % 64 ∧ d.arg3 = (if d.opCode = 1 then iw / 2 ^ 12 % 64 else iw / 2 ^ 6 % 4096) ∧
    d.function = (if d.opCode < 4 then iw / 2 ^ 3 % 8 else 0)

/-- For every 33-bit word the decoder answers an instruction, the word matches the mask and match of that instruction's
row of opcode_table.json, and every row the word matches is that row: the rows are disjoint and cover all words. The
33-bit word and the numbering of its bits are the spec's decision D1 (entries 7, 24). (30_encoding.md section 8,
92_eei_decisions.md D1, notes/assumptions/24.md.) -/
def Obligations.OpcodeTableSelectsDecodedRow : Prop :=
  ∀ iw < 2 ^ 33, ∃ i, decodeTableWord 33 iw = some i ∧ i.rowMatches iw = true ∧
    ∀ j : Instr, j.rowMatches iw = true → j.row = i.row

/-- For a slice [a:b) inside the line with only binary characters, Field answers the sum, over its positions k from the
left, of 2^(w-1-k) for each character 1, w being its width. The significance order is from general knowledge (G1;
entry 8). (30_encoding.md section 2, 93_implementation_defined.md G1.) -/
def Obligations.FieldIsPositionalNumeral : Prop :=
  ∀ (l : Line) (a b : Nat), a < b → b ≤ l.length →
    (∀ p, a ≤ p → p < b → l[p]? = some '0' ∨ l[p]? = some '1') →
    field l a b =
      some (∑ k ∈ Finset.range (b - a), if l[a + k]? = some '1' then 2 ^ (b - a - 1 - k) else 0)

/-- For two lines of 33 characters, of any characters: if they agree below 30 they decode to the same fields; if they
begin with 001 and agree below 21 and in [27:30) too; if they begin with 1 and agree below 27 too. That non-binary
characters elsewhere are ignored is the spec's decision D5 (entry 11). (30_encoding.md section 4,
92_eei_decisions.md D5.) -/
def Obligations.IgnoredCharactersAreNotRead : Prop :=
  ∀ l l' : Line, l.length = 33 → l'.length = 33 →
    ((∀ p, p < 30 → l[p]? = l'[p]?) → decodeFields l = decodeFields l') ∧
    (l.take 3 = ['0', '0', '1'] → (∀ p, p < 21 ∨ 27 ≤ p ∧ p < 30 → l[p]? = l'[p]?) →
      decodeFields l = decodeFields l') ∧
    (l[0]? = some '1' → (∀ p, p < 27 → l[p]? = l'[p]?) → decodeFields l = decodeFields l')

/-- With the run status Running and a line at the pc: if the line decodes to i and exec i answers u, the step answers u,
with the trace record of i put out if u is still Running; if the line does not decode, the step takes DecodeError
carrying it. Where the trace record is kept is the model's choice (entry 20). (45_fetch_step.md section 1,
40_decoder.md section 1.) -/
def Obligations.StepRunsDecodedInstruction : Prop :=
  ∀ (s : State) (line : Line), s.status = .running → s.program[s.pc]? = some line →
    (∀ (i : Instr) (u : State), decode line = .ok i → exec i s = .next u →
      step s = .next (if u.status = .running then { u with out := .trace (traceRecord i u) :: u.out } else u)) ∧
    (∀ e, decode line = .error e → step s = .next (takeFault (.decodeError line) s))

/-- For every Running state: if N is at most the pc, the step answers that state with status Halted and all else the
same; if the pc is below N, the step does not halt. (R213.) -/
def Obligations.PcOutOfRangeHalts : Prop :=
  ∀ s : State, s.status = .running →
    (s.program.length ≤ s.pc → step s = .next { s with status := .halted }) ∧
    (s.pc < s.program.length → ∃ t, step s = .next t ∧ t.status ≠ .halted)

/-- For every Running state with an empty program store and pc 0 (the load of the empty program is one) the step answers
that state with only the status changed, to Halted, whose exit status is zero; no trace record is put out. (R215.) -/
def Obligations.EmptyProgramHaltsAtOnce : Prop :=
  (∀ s : State, s.program = [] → s.pc = 0 → s.status = .running →
    step s = .next { s with status := .halted } ∧ traceRecords { s with status := .halted }.out = traceRecords s.out) ∧
  step (load []) = .next { load [] with status := .halted } ∧ RunStatus.halted.exitStatus = some .zero

/-- From every state the step answers a next state, never a fault or a refusal of the interface; from a state that is
Halted or Faulted it answers that same state. The run status is the spec's decision D16 (entry 5); that a fault of
the spec is a next state is the model's choice (entries 5, 28). (10_state.md section 6, 45_fetch_step.md section 4,
60_exceptions.md section 7.) -/
def Obligations.EndedRunHoldsItsState : Prop :=
  ∀ s : State, (∃ t, step s = .next t) ∧ (s.status ≠ .running → step s = .next s)

/-- From every Running state the step answers a state in exactly one of three ways: still Running, with registers,
memory and pc those that exec of the decoded line answers; Faulted, with registers, memory and pc unchanged and the
pc naming a line; Halted, with all three unchanged and the pc out of range. In all three the program store is as
before. The run status is the spec's decision D16 (entry 5), the constancy of the store D22 (entry 23).
(45_fetch_step.md section 1, 60_exceptions.md section 4, 92_eei_decisions.md D16, D22.) -/
def Obligations.CycleIsAtomic : Prop :=
  ∀ s : State, s.status = .running → ∃ t, step s = .next t ∧ t.program = s.program ∧
    ((t.status = .running ∧ ∃ line i u, s.program[s.pc]? = some line ∧ decode line = .ok i ∧ exec i s = .next u ∧
        t.regs = u.regs ∧ t.mem = u.mem ∧ t.pc = u.pc) ∨
      ((∃ info, t.status = .faulted info) ∧ s.pc < s.program.length ∧
        t.regs = s.regs ∧ t.mem = s.mem ∧ t.pc = s.pc) ∨
      (t.status = .halted ∧ s.program.length ≤ s.pc ∧ t.regs = s.regs ∧ t.mem = s.mem ∧ t.pc = s.pc))

/-- If a step from a Running state answers a Faulted one, then registers, memory, pc and program store are as before,
exactly one fault report is put out, naming that fault, no trace record is put out, and every further step answers
that same state. That an ended run holds its state is the spec's decision D16 (entry 5), that the program store is
as before D22 (entry 23), and where reports and trace records are kept is the model's choice (entry 20).
(60_exceptions.md section 4, 45_fetch_step.md section 3, 92_eei_decisions.md D16, D22.) -/
def Obligations.FaultEntryKeepsStateAndReportsOnce : Prop :=
  ∀ (s t : State) (info : FaultInfo), s.status = .running → step s = .next t → t.status = .faulted info →
    t.regs = s.regs ∧ t.mem = s.mem ∧ t.pc = s.pc ∧ t.program = s.program ∧
    (∃ r, r.info = info ∧ faultReports t.out = r :: faultReports s.out) ∧
    traceRecords t.out = traceRecords s.out ∧ step t = .next t

/-- From every Running state: with no line at the pc the status becomes Halted; with a line whose fields cannot be read,
DecodeError carrying the line; otherwise, for the decoded fields, the first that applies of UnrecognizedOpcode,
RegisterIndexOutOfBounds, UnrecognizedFunction, DivisionByZero, MemoryAddressOutOfBounds, MemoryWordOverrun; and
Running if none does. The source fixes the order down to UnrecognizedOpcode; that the register bounds come before
the function, and the function before the data-dependent checks (steps 4 to 6 of R236), is the spec's decision D13
(entry 17). Causes and bounds not in the source are its decisions D8 to D12 and D14 (entries 12 to 16, 18), which
lines cannot be read D3 and D5 (entries 9, 11), the run status D16 (entry 5). (60_exceptions.md sections 2 and 3,
70_reset_and_hazards.md section 3, 92_eei_decisions.md D3, D5, D8 to D14, D16.) -/
def Obligations.StatusFollowsCheckPriority : Prop :=
  ∀ s : State, s.status = .running → ∃ t, step s = .next t ∧
    (s.program[s.pc]? = none → t.status = .halted) ∧
    (∀ line, s.program[s.pc]? = some line →
      (decodeFields line = none → t.status = .faulted (.decodeError line)) ∧
      (∀ d, decodeFields line = some d → t.status = statusByPriority d s))

/-- State.reset satisfies Inv: canonical memory, pc within max(N, 4095), a status that the pc and the program account
for, one fault report exactly in a faulted run, and a newest trace record that shows the current registers, memory
and pc. The canonical form, the status and the place of the outputs are choices (entries 4, 5, 20). (10_state.md
sections 3, 5, 6 and 8.) -/
def Obligations.InvariantHoldsAtReset : Prop :=
  State.reset.Inv

/-- For every state satisfying Inv, reached or not, if the step answers a next state, that state satisfies Inv: memory
canonical; pc at most max(N, 4095); Halted only with the pc out of range, Faulted only with the fault that the line
at the pc gives; one report exactly when Faulted; and the newest trace record current. The canonical form, the
status and the place of the outputs are choices (entries 4, 5, 20). (10_state.md sections 3, 5 and 6,
45_fetch_step.md sections 2 and 3, 60_exceptions.md section 2.) -/
def Obligations.InvariantKeptByEveryStep : Prop :=
  ∀ s t : State, s.Inv → step s = .next t → t.Inv

/-- For every state in the hardware form, if the step answers t, then t is in the hardware form, its pc is below 2^13,
and if the step was a cycle (the status was Running) t is not Faulted with DecodeError. The hardware form is the
spec's decisions D1 and D7 (entries 6, 7). (10_state.md section 3, 40_decoder.md section 3, 92_eei_decisions.md D1,
D7.) -/
def Obligations.HardwareFormKeptByEveryStep : Prop :=
  ∀ s t : State, s.HardwareForm → step s = .next t →
    t.HardwareForm ∧ t.pc < 2 ^ Config.pcw ∧
      (s.status = .running → ∀ line, t.status ≠ .faulted (.decodeError line))

/-- From a Running state: if the step answers a Running state, exactly one trace record is put out, with the new pc, the
fields decoded from the line at the old pc, all registers and all 32 bytes of the new state; if it answers another,
no trace record is put out. Where the outputs are kept is the model's choice (entry 20). (45_fetch_step.md section
3, 90_conflicts.md C6.) -/
def Obligations.CompletedCycleEmitsItsTraceRecord : Prop :=
  ∀ s t : State, s.status = .running → step s = .next t →
    (t.status = .running → ∃ line d r, s.program[s.pc]? = some line ∧ decodeFields line = some d ∧
      traceRecords t.out = r :: traceRecords s.out ∧ r.newPc = t.pc ∧ r.decoded = d ∧ r.regs = t.regs ∧
      ∀ (n : Nat) (h : n < 32), r.mem[n] = t.mem.read n) ∧
    (t.status ≠ .running → traceRecords t.out = traceRecords s.out)

/-- If k steps from a state lead to a state that is still Running, then exactly k trace records have been put out on the
way and no fault report. Where they are kept is the model's choice (entry 20). (45_fetch_step.md section 3,
70_reset_and_hazards.md section 5.) -/
def Obligations.RunEmitsOneRecordPerCycle : Prop :=
  ∀ (k : Nat) (s t : State), Host.Core.run core k s = .next t → t.status = .running →
    (traceRecords t.out).length = (traceRecords s.out).length + k ∧ faultReports t.out = faultReports s.out

/-- If exec or the step answers a next state, its program store is the one before, so the next fetch reads the same
lines. The constancy of the store is the spec's decision D22 (entry 23). (10_state.md section 5, 20_memory.md
section 6, 92_eei_decisions.md D22.) -/
def Obligations.ProgramStoreNeverChanges : Prop :=
  (∀ (i : Instr) (s t : State), exec i s = .next t → t.program = s.program) ∧
    ∀ s t : State, step s = .next t → t.program = s.program

/-- If exec of an instruction answers t: unless op_code is 5 memory is unchanged; unless op_code is 4, registers, pc and
status do not depend on what memory held; and memory in canonical form, which lists only bytes 0 to 31, stays so.
The canonical form (rising addresses, no zero entry) is the model's choice (entry 4). (10_state.md section 5,
notes/assumptions/4.md.) -/
def Obligations.MemoryReadOnlyByLoadWrittenOnlyByStore : Prop :=
  ∀ (i : Instr) (s t : State), exec i s = .next t →
    (i.fields.opCode ≠ 5 → t.mem = s.mem) ∧
    (i.fields.opCode ≠ 4 → ∀ (m : Memory) (u : State), exec i { s with mem := m } = .next u →
      u.regs = t.regs ∧ u.pc = t.pc ∧ u.status = t.status) ∧
    (s.mem.wf = true → t.mem.wf = true)

/-- From a Running state, if exec of an instruction answers t: if t is Running and op_code is not 3, the pc is one more;
if t is Running and op_code is 3, the pc is arg3 when the branch's condition holds and one more when it does not; if
t is not Running, the pc is unchanged; and registers, memory and status of t do not depend on the old pc. A line
that fails to decode leaves the pc unchanged. That functions 3 and 4 compare unsigned is the spec's decision D18
(entry 21). (10_state.md section 3, 43_branch.md section 1, 92_eei_decisions.md D18.) -/
def Obligations.PcUpdateOfEveryInstruction : Prop :=
  ∀ s : State, s.status = .running →
    (∀ (i : Instr) (t : State), exec i s = .next t →
      (t.status = .running → i.fields.opCode ≠ 3 → t.pc = s.pc + 1) ∧
      (t.status = .running → i.fields.opCode = 3 →
        (BranchTaken i.fields.function (s.regAt i.fields.arg1) (s.regAt i.fields.arg2) → t.pc = i.fields.arg3) ∧
        (¬BranchTaken i.fields.function (s.regAt i.fields.arg1) (s.regAt i.fields.arg2) → t.pc = s.pc + 1)) ∧
      (t.status ≠ .running → t.pc = s.pc) ∧
      (∀ (p : Nat) (u : State), exec i { s with pc := p } = .next u →
        u.regs = t.regs ∧ u.mem = t.mem ∧ u.status = t.status)) ∧
    (∀ (line : Line) (e : DecodeError) (t : State), s.program[s.pc]? = some line → decode line = .error e →
      step s = .next t → t.pc = s.pc)

/-- If exec of an instruction answers t from s, then from s with any other outputs, run status and program store it
answers some u with the same registers, memory and pc, which takes the same fault if t took one and keeps its status
if t did. Where outputs and the store are kept is the model's choice (entries 1, 20). (10_state.md sections 5 and 6,
20_memory.md section 1, 45_fetch_step.md section 3.) -/
def Obligations.ExecutorReadsNoOutputStatusOrProgram : Prop :=
  ∀ (i : Instr) (s t : State) (o : List Output) (st : RunStatus) (p : List Line), exec i s = .next t →
    ∃ u, exec i { s with out := o, status := st, program := p } = .next u ∧
      u.regs = t.regs ∧ u.mem = t.mem ∧ u.pc = t.pc ∧
      ((∃ k, t = takeFault (.executionError k) s ∧ u.status = .faulted (.executionError k)) ∨
        (t.status = s.status ∧ t.out = s.out ∧ u.status = st ∧ u.out = o))

/-- For ADD SUB MUL DIV AND OR XOR, ADDI SUBI MULI DIVI ANDI ORI XORI and LW: if exec answers t, every register but
x[arg1] is unchanged, every byte of memory and the program store are unchanged, and either status and outputs are
unchanged or t is the state with a fault taken. (10_state.md section 2, 41_alu_reg.md section 1, 42_alu_imm.md
section 1, 44_load_store.md section 2, LW.) -/
def Obligations.RegisterWritersFrame : Prop :=
  ∀ (a b c : Nat) (s t : State),
    ∀ i ∈ [Instr.add a b c, .sub a b c, .mul a b c, .div a b c, .and a b c, .or a b c, .xor a b c,
        .addi a b c, .subi a b c, .muli a b c, .divi a b c, .andi a b c, .ori a b c, .xori a b c,
        .lw a b c],
      exec i s = .next t →
        (∀ k : Fin 32, k.val ≠ a → t.regs[k] = s.regs[k]) ∧ (∀ n, t.mem.read n = s.mem.read n) ∧
        t.program = s.program ∧
        ((t.status = s.status ∧ t.out = s.out) ∨ ∃ k, t = takeFault (.executionError k) s)

/-- For BEQ BNE BLT BGT: if exec answers t, every register, every byte of memory and the program store are unchanged,
and either status and outputs are unchanged or t is the state with a fault taken. (43_branch.md section 1.) -/
def Obligations.BranchFrame : Prop :=
  ∀ (a b c : Nat) (s t : State),
    ∀ i ∈ [Instr.beq a b c, .bne a b c, .blt a b c, .bgt a b c],
      exec i s = .next t →
        t.regs = s.regs ∧ (∀ n, t.mem.read n = s.mem.read n) ∧ t.program = s.program ∧
        ((t.status = s.status ∧ t.out = s.out) ∨ ∃ k, t = takeFault (.executionError k) s)

/-- If exec of SW answers t, every register and the program store are unchanged; every byte outside the four that begin
at the effective address x[arg2] + arg3, and every byte if a fault is taken, reads as before; and either status and
outputs are unchanged or t is the state with a fault taken. (44_load_store.md section 2, SW, 20_memory.md section
2.) -/
def Obligations.StoreFrame : Prop :=
  ∀ (a b c : Nat) (s t : State), exec (.sw a b c) s = .next t →
    t.regs = s.regs ∧ t.program = s.program ∧
    (∀ (hb : b < 32) (n : Nat), (n < effAddr ⟨b, hb⟩ c s ∨ effAddr ⟨b, hb⟩ c s + 3 < n) →
      t.mem.read n = s.mem.read n) ∧
    ((t.status = s.status ∧ t.out = s.out) ∨ ∃ k, t = takeFault (.executionError k) s)

/-- For the eight illegal rows of the opcode table: if exec answers t, then t is the state with a fault taken, and
registers, every byte of memory, pc and program store are unchanged. (30_encoding.md section 6, 60_exceptions.md
section 4.) -/
def Obligations.IllegalRowsFrame : Prop :=
  ∀ (a b c f : Nat) (s t : State),
    ∀ i ∈ [Instr.illegalOp0 a b c f, .illegalOp6 a b c, .illegalOp7 a b c, .illegalOp1Fn0 a b c, .illegalOp2Fn0 a b c,
        .illegalOp3Fn0 a b c, .illegalOp3Fn5 a b c, .illegalOp3Fn6Fn7 a b c f],
      exec i s = .next t →
        (∃ k, t = takeFault (.executionError k) s) ∧ t.regs = s.regs ∧ (∀ n, t.mem.read n = s.mem.read n) ∧
        t.pc = s.pc ∧ t.program = s.program

/-- For every memory and address a the word read there is mem[a] * 2^24 + mem[a+1] * 2^16 + mem[a+2] * 2^8 + mem[a+3].
The spec says so for a up to 28; that bytes beyond 31 can be read at all, as 0 where memory is canonical, is the
model's choice (entry 4). (20_memory.md section 2, notes/assumptions/4.md.) -/
def Obligations.MemReadIsBigEndian : Prop :=
  ∀ (m : Memory) (a : Nat), (m.readWord a).toNat =
    (m.read a).toNat * 2 ^ 24 + (m.read (a + 1)).toNat * 2 ^ 16 + (m.read (a + 2)).toNat * 2 ^ 8 + (m.read (a + 3)).toNat

/-- For every canonical memory, every a up to 28 and every 32-bit v: after the write, byte a + k is (v >> (24 - 8k)) &
0xFF for k = 0 to 3, every other byte is as before, the memory is canonical, and MemRead at a is v. The canonical
form is the model's choice (entry 4). (20_memory.md section 2, notes/assumptions/4.md.) -/
def Obligations.MemWriteThenRead : Prop :=
  ∀ (m : Memory) (a : Nat) (v : Word), m.wf = true → a ≤ 28 →
    ((m.writeWord a v).read a).toNat = v.toNat >>> 24 &&& 0xFF ∧
    ((m.writeWord a v).read (a + 1)).toNat = v.toNat >>> 16 &&& 0xFF ∧
    ((m.writeWord a v).read (a + 2)).toNat = v.toNat >>> 8 &&& 0xFF ∧
    ((m.writeWord a v).read (a + 3)).toNat = v.toNat &&& 0xFF ∧
    (∀ n, (n < a ∨ a + 3 < n) → (m.writeWord a v).read n = m.read n) ∧
    (m.writeWord a v).wf = true ∧ (m.writeWord a v).readWord a = v

/-- From a state with canonical memory (the model's form, entry 4) let SW store x[arg1] at A = x[arg2] + arg3, A up to
28; then in any state whose four bytes at A are those left by the store, an LW whose address is A puts the stored
value into its register. (44_load_store.md section 3, 20_memory.md section 2.) -/
def Obligations.LoadAfterStoreGivesTheStoredValue : Prop :=
  ∀ (r b o d b' o' : Nat) (s t u : State) (hr : r < 32) (hb : b < 32) (hd : d < 32) (hb' : b' < 32),
    s.mem.wf = true → s.regs[b].toNat + o ≤ 28 → exec (.sw r b o) s = .next t →
    (∀ k < 4, u.mem.read (s.regs[b].toNat + o + k) = t.mem.read (s.regs[b].toNat + o + k)) →
    u.regs[b'].toNat + o' = s.regs[b].toNat + o →
    ∃ w, exec (.lw d b' o') u = .next w ∧ w.regs[d] = s.regs[r]

/-- If two memories are in canonical form and every address 0 to 31 reads the same in both, they are equal. The
canonical form is the model's (entry 4). (10_state.md section 5, 20_memory.md section 5.) -/
def Obligations.EqualMemoriesAreEqualData : Prop :=
  ∀ m m' : Memory, m.wf = true → m'.wf = true → (∀ a < 32, m.read a = m'.read a) → m = m'

/-- The reset state has pc 0, status Running, every register 0, every byte of memory 0, no program line and no output.
The zeros of registers and memory are the spec's decision D6 (entries 3, 4), the status D16 (entry 5), the empty
store and outputs the model's (entries 2, 20). (10_state.md section 8, 70_reset_and_hazards.md section 1,
92_eei_decisions.md D6, D16.) -/
def Obligations.ResetValuesOfEveryField : Prop :=
  State.reset.pc = 0 ∧ State.reset.status = .running ∧ (∀ i : Fin 32, State.reset.regs[i] = 0) ∧
    (∀ n, State.reset.mem.read n = 0) ∧ State.reset.program = [] ∧ State.reset.out = []

/-- The reset input, from every state, gives the reset state with the program store kept. A launch with given registers
and bytes gives pc 0, Running, those registers and those bytes, and the program. Loading words of 33 bits is refused
above 4096 of them (decision D7; entry 6) and otherwise gives a state in the hardware form that satisfies the
invariant, with as many lines as words. (70_reset_and_hazards.md sections 1 and 2, 10_state.md section 8,
92_eei_decisions.md D6, D7.) -/
def Obligations.HostStartsARun : Prop :=
  (∀ s : State, resetRun s = { State.reset with program := s.program }) ∧
    (∀ (regs : Vector Word 32) (bytes : Vector Byte 32) (p : List Line),
      (launch regs bytes p).regs = regs ∧ (launch regs bytes p).pc = 0 ∧ (launch regs bytes p).status = .running ∧
      (launch regs bytes p).program = p ∧ ∀ (n : Nat) (h : n < 32), (launch regs bytes p).mem.read n = bytes[n]) ∧
    ∀ ws : List (BitVec 33), (4096 < ws.length → loadWords ws = none) ∧
      (ws.length ≤ 4096 → ∃ s, loadWords ws = some s ∧ s.HardwareForm ∧ s.Inv ∧ s.program.length = ws.length)

/-- A run status has no exit status exactly when it is Running, zero exactly when it is Halted, non-zero exactly when it
is Faulted; kind and cause codes are 0, 0 for Running and Halted, 1, 0 for DecodeError, and 2 with 1 to 6 for the
causes in the order of the table. The codes are the spec's decision D14 (entry 18). (45_fetch_step.md section 3,
60_exceptions.md section 2, 92_eei_decisions.md D14, D16.) -/
def Obligations.ExitStatusAndFaultCodes : Prop :=
  (∀ st : RunStatus, (st.exitStatus = none ↔ st = .running) ∧ (st.exitStatus = some .zero ↔ st = .halted) ∧
      (st.exitStatus = some .nonZero ↔ ∃ info, st = .faulted info)) ∧
    RunStatus.running.kindCode = 0 ∧ RunStatus.running.causeCode = 0 ∧ RunStatus.halted.kindCode = 0 ∧
    RunStatus.halted.causeCode = 0 ∧
    (∀ line, (RunStatus.faulted (.decodeError line)).kindCode = 1 ∧ (RunStatus.faulted (.decodeError line)).causeCode = 0) ∧
    (∀ k, (RunStatus.faulted (.executionError k)).kindCode = 2 ∧ (RunStatus.faulted (.executionError k)).causeCode = k.code) ∧
    [Cause.unrecognizedOpcode, .registerIndexOutOfBounds, .unrecognizedFunction, .memoryAddressOutOfBounds, .divisionByZero,
      .memoryWordOverrun].map Cause.code = [1, 2, 3, 4, 5, 6]
end

