-- ==== Sys2Proof/Laws/Decode.lean ====
section
/-! SUPPORT. The pieces of the Decoder and of the encoder: reading back what was written, and the ranges of what is read. -/

namespace Sys2Proof

/-- Well-formed fields, as their ranges. -/
theorem Decoded.wf_iff (d : Decoded) :
    d.wf = true ↔ d.opCode < 8 ∧ d.arg1 < 64 ∧ d.arg2 < 64 ∧ d.arg3 < (if d.opCode = 1 then 64 else 4096) ∧
      d.function < 8 ∧ (d.opCode < 4 ∨ d.function = 0) := by
  simp only [Decoded.wf, decide_eq_true_eq]

theorem Instr.fields_wf {i : Instr} (h : i.wf = true) : i.fields.wf = true := by
  unfold Instr.wf at h
  exact (Bool.and_eq_true _ _ ▸ h).1

theorem Instr.wf_illegalOp3Fn6Fn7 (a b c f : Nat) :
    (Instr.illegalOp3Fn6Fn7 a b c f).wf = true ↔
      (3 < 8 ∧ a < 64 ∧ b < 64 ∧ c < 4096 ∧ f < 8 ∧ (3 < 4 ∨ f = 0)) ∧ 6 ≤ f := by
  simp [Instr.wf, Decoded.wf, Instr.fields]

@[simp] theorem bits_length (w n : Nat) : (bits w n).length = w := by
  induction w with
  | zero => rfl
  | succ k ih => simp [bits, ih]

theorem digit_bit (b : Bool) : digit (if b then '1' else '0') = some b.toNat := by
  cases b <;> rfl

/-- Reading back `w` written bits and then the rest. -/
theorem binFrom_bits_append (acc w n : Nat) (rest : Line) :
    binFrom acc (bits w n ++ rest) = binFrom (acc * 2 ^ w + n % 2 ^ w) rest := by
  induction w generalizing acc with
  | zero => simp [bits, Nat.mod_one]
  | succ k ih =>
    have h : n % 2 ^ (k + 1) = (n.testBit k).toNat * 2 ^ k + n % 2 ^ k := by
      rw [pow_succ, Nat.mod_mul, Nat.testBit_eq_decide_div_mod_eq]
      rcases Nat.mod_two_eq_zero_or_one (n / 2 ^ k) with h | h <;> simp [h, Nat.add_comm]
    simp only [bits, List.cons_append, binFrom, digit_bit, ih]
    congr 1
    rw [h]
    ring

theorem binFrom_bits (acc w n : Nat) : binFrom acc (bits w n) = some (acc * 2 ^ w + n % 2 ^ w) := by
  have h := binFrom_bits_append acc w n []
  rwa [List.append_nil] at h

/-- What a run of `w` characters can be read as. -/
theorem binFrom_lt {acc v : Nat} (line : Line) (h : binFrom acc line = some v) : v < (acc + 1) * 2 ^ line.length := by
  induction line generalizing acc with
  | nil => simp [binFrom] at h; simp [h]
  | cons c cs ih =>
    unfold binFrom at h
    unfold digit at h
    split at h
    · cases h
    · next d hd =>
      have hd' : d ≤ 1 := by
        split_ifs at hd <;> (cases hd; decide)
      calc v < (2 * acc + d + 1) * 2 ^ cs.length := ih h
        _ ≤ (2 * (acc + 1)) * 2 ^ cs.length := Nat.mul_le_mul_right _ (by omega)
        _ = _ := by rw [List.length_cons, pow_succ]; ring

/-- A field whose slice lies inside the line. -/
theorem field_of_inside {line : Line} {a b : Nat} (h : b ≤ line.length) (hab : a < b) :
    field line a b = binFrom 0 (slice line a b) := by
  unfold field
  rw [if_neg (by omega)]
  rfl

/-- A field that was read lies inside the line and is within its width. -/
theorem field_lt {line : Line} {a b : Int} {v : Nat} (h : field line a b = some v) :
    0 ≤ a ∧ a < b ∧ b ≤ line.length ∧ v < 2 ^ (b - a).toNat := by
  unfold field at h
  split at h
  · cases h
  · next hn =>
    refine ⟨by omega, by omega, by omega, ?_⟩
    have := binFrom_lt _ h
    have hl : (slice line a.toNat b.toNat).length = (b - a).toNat := by
      simp [slice]
      omega
    rw [hl] at this
    omega

/-- The fields the Decoder read, each at its position (40_decoder R112). -/
theorem decodeFields_eq_some {line : Line} {d : Decoded} :
    decodeFields line = some d ↔
      field line 0 3 = some d.opCode ∧ field line 3 9 = some d.arg1 ∧ field line 9 15 = some d.arg2 ∧
        (if d.opCode = 1 then field line 15 21 else field line 15 27) = some d.arg3 ∧
        (if d.opCode < 4 then field line (line.length - 6) (line.length - 3) else some 0) = some d.function := by
  obtain ⟨o, a, b, c, f⟩ := d
  simp only [decodeFields, Option.bind_eq_bind, Option.bind_eq_some_iff, Option.pure_def, Option.some.injEq,
    Decoded.mk.injEq]
  constructor
  · rintro ⟨_, h0, _, h1, _, h2, _, h3, _, h4, rfl, rfl, rfl, rfl, rfl⟩
    exact ⟨h0, h1, h2, h3, h4⟩
  · rintro ⟨h0, h1, h2, h3, h4⟩
    exact ⟨_, h0, _, h1, _, h2, _, h3, _, h4, rfl, rfl, rfl, rfl, rfl⟩

/-- Decoding succeeds exactly when the five fields are read. -/
theorem decode_eq_ok {line : Line} {i : Instr} :
    decode line = .ok i ↔ ∃ d, decodeFields line = some d ∧ d.toInstr = i := by
  unfold decode
  cases decodeFields line <;> simp

theorem decode_eq_error {line : Line} {e : DecodeError} :
    decode line = .error e ↔ decodeFields line = none ∧ e = .malformedLine line := by
  unfold decode
  cases decodeFields line <;> simp [eq_comm]

/-- A field read from a line written as three parts, the middle one the field's slice. -/
theorem field_append (pre mid post : Line) {a b : Int} (ha : a = pre.length) (hb : b = pre.length + mid.length)
    (hm : 0 < mid.length) : field (pre ++ mid ++ post) a b = binFrom 0 mid := by
  subst ha hb
  rw [show (pre.length : Int) + mid.length = ((pre.length + mid.length : Nat) : Int) by push_cast; rfl,
    field_of_inside (by simp) (by omega)]
  congr 1
  simp [slice]

/-- A written field is read back. -/
theorem field_append_bits (pre post : Line) {a b : Int} {w n : Nat} (ha : a = pre.length) (hb : b = pre.length + w)
    (hw : 0 < w) (hn : n < 2 ^ w) : field (pre ++ bits w n ++ post) a b = some n := by
  rw [field_append pre _ post ha (by simpa using hb) (by simpa using hw), binFrom_bits, Nat.mod_eq_of_lt hn]
  simp

/-- Decoding a line written in format R (30_encoding R84), whatever the ignored characters `g` and `x`. -/
theorem decodeFields_formatR {a b c g f x : Nat} (ha : a < 64) (hb : b < 64) (hc : c < 64) (hf : f < 8) :
    decodeFields (bits 3 1 ++ bits 6 a ++ bits 6 b ++ bits 6 c ++ bits 6 g ++ bits 3 f ++ bits 3 x) =
      some ⟨1, a, b, c, f⟩ := by
  rw [decodeFields_eq_some, if_pos rfl, if_pos (show 1 < 4 by omega)]
  have h0 := field_append_bits [] (bits 6 a ++ bits 6 b ++ bits 6 c ++ bits 6 g ++ bits 3 f ++ bits 3 x)
    (a := 0) (b := 3) (w := 3) (n := 1) (by simp) (by simp) (by omega) (by omega)
  have h1 := field_append_bits (bits 3 1) (bits 6 b ++ bits 6 c ++ bits 6 g ++ bits 3 f ++ bits 3 x)
    (a := 3) (b := 9) (w := 6) (n := a) (by simp) (by simp) (by omega) (by omega)
  have h2 := field_append_bits (bits 3 1 ++ bits 6 a) (bits 6 c ++ bits 6 g ++ bits 3 f ++ bits 3 x)
    (a := 9) (b := 15) (w := 6) (n := b) (by simp) (by simp) (by omega) (by omega)
  have h3 := field_append_bits (bits 3 1 ++ bits 6 a ++ bits 6 b) (bits 6 g ++ bits 3 f ++ bits 3 x)
    (a := 15) (b := 21) (w := 6) (n := c) (by simp) (by simp) (by omega) (by omega)
  have h4 := field_append_bits (bits 3 1 ++ bits 6 a ++ bits 6 b ++ bits 6 c ++ bits 6 g) (bits 3 x)
    (a := 33 - 6) (b := 33 - 3) (w := 3) (n := f) (by simp) (by simp) (by omega) (by omega)
  simp only [List.append_assoc, List.nil_append] at h0 h1 h2 h3 h4 ⊢
  refine ⟨h0, h1, h2, h3, ?_⟩
  simp only [List.length_append, bits_length]
  exact h4

/-- Decoding a line written in format I, B or, for `op_code` 0, U (30_encoding R84), whatever the ignored characters `x`. -/
theorem decodeFields_formatIB {o a b c f x : Nat} (ho : o < 4) (ho1 : o ≠ 1) (ha : a < 64) (hb : b < 64) (hc : c < 4096)
    (hf : f < 8) :
    decodeFields (bits 3 o ++ bits 6 a ++ bits 6 b ++ bits 12 c ++ bits 3 f ++ bits 3 x) = some ⟨o, a, b, c, f⟩ := by
  rw [decodeFields_eq_some, if_neg ho1, if_pos ho]
  have h0 := field_append_bits [] (bits 6 a ++ bits 6 b ++ bits 12 c ++ bits 3 f ++ bits 3 x)
    (a := 0) (b := 3) (w := 3) (n := o) (by simp) (by simp) (by omega) (by omega)
  have h1 := field_append_bits (bits 3 o) (bits 6 b ++ bits 12 c ++ bits 3 f ++ bits 3 x)
    (a := 3) (b := 9) (w := 6) (n := a) (by simp) (by simp) (by omega) (by omega)
  have h2 := field_append_bits (bits 3 o ++ bits 6 a) (bits 12 c ++ bits 3 f ++ bits 3 x)
    (a := 9) (b := 15) (w := 6) (n := b) (by simp) (by simp) (by omega) (by omega)
  have h3 := field_append_bits (bits 3 o ++ bits 6 a ++ bits 6 b) (bits 3 f ++ bits 3 x)
    (a := 15) (b := 27) (w := 12) (n := c) (by simp) (by simp) (by omega) (by omega)
  have h4 := field_append_bits (bits 3 o ++ bits 6 a ++ bits 6 b ++ bits 12 c) (bits 3 x)
    (a := 33 - 6) (b := 33 - 3) (w := 3) (n := f) (by simp) (by simp) (by omega) (by omega)
  simp only [List.append_assoc, List.nil_append] at h0 h1 h2 h3 h4 ⊢
  refine ⟨h0, h1, h2, h3, ?_⟩
  simp only [List.length_append, bits_length]
  exact h4

/-- Decoding a line written in format M or, for `op_code` 6 and 7, U (30_encoding R84), whatever the ignored characters
`x`. -/
theorem decodeFields_formatM {o a b c x : Nat} (ho : 4 ≤ o) (ho8 : o < 8) (ha : a < 64) (hb : b < 64) (hc : c < 4096) :
    decodeFields (bits 3 o ++ bits 6 a ++ bits 6 b ++ bits 12 c ++ bits 6 x) = some ⟨o, a, b, c, 0⟩ := by
  rw [decodeFields_eq_some, if_neg (by show o ≠ 1; omega), if_neg (by show ¬o < 4; omega)]
  have h0 := field_append_bits [] (bits 6 a ++ bits 6 b ++ bits 12 c ++ bits 6 x)
    (a := 0) (b := 3) (w := 3) (n := o) (by simp) (by simp) (by omega) (by omega)
  have h1 := field_append_bits (bits 3 o) (bits 6 b ++ bits 12 c ++ bits 6 x)
    (a := 3) (b := 9) (w := 6) (n := a) (by simp) (by simp) (by omega) (by omega)
  have h2 := field_append_bits (bits 3 o ++ bits 6 a) (bits 12 c ++ bits 6 x)
    (a := 9) (b := 15) (w := 6) (n := b) (by simp) (by simp) (by omega) (by omega)
  have h3 := field_append_bits (bits 3 o ++ bits 6 a ++ bits 6 b) (bits 6 x)
    (a := 15) (b := 27) (w := 12) (n := c) (by simp) (by simp) (by omega) (by omega)
  simp only [List.append_assoc, List.nil_append] at h0 h1 h2 h3 ⊢
  exact ⟨h0, h1, h2, h3, trivial⟩

end Sys2Proof
end

