-- ==== Sys2Proof/Laws/State.lean ====
section
/-! SUPPORT. What each named update does to each field of the state: one lemma per field per update. -/

namespace Sys2Proof.Machine

variable (s : State)

@[simp] theorem State.setReg_regs (i : Fin 32) (v : Word) : (s.setReg i v).regs = s.regs.set i v := rfl
@[simp] theorem State.setReg_mem (i : Fin 32) (v : Word) : (s.setReg i v).mem = s.mem := rfl
@[simp] theorem State.setReg_pc (i : Fin 32) (v : Word) : (s.setReg i v).pc = s.pc := rfl
@[simp] theorem State.setReg_status (i : Fin 32) (v : Word) : (s.setReg i v).status = s.status := rfl
@[simp] theorem State.setReg_program (i : Fin 32) (v : Word) : (s.setReg i v).program = s.program := rfl
@[simp] theorem State.setReg_out (i : Fin 32) (v : Word) : (s.setReg i v).out = s.out := rfl

@[simp] theorem State.setPc_regs (t : Nat) : (s.setPc t).regs = s.regs := rfl
@[simp] theorem State.setPc_mem (t : Nat) : (s.setPc t).mem = s.mem := rfl
@[simp] theorem State.setPc_pc (t : Nat) : (s.setPc t).pc = t := rfl
@[simp] theorem State.setPc_status (t : Nat) : (s.setPc t).status = s.status := rfl
@[simp] theorem State.setPc_program (t : Nat) : (s.setPc t).program = s.program := rfl
@[simp] theorem State.setPc_out (t : Nat) : (s.setPc t).out = s.out := rfl

@[simp] theorem State.advance_regs : (s.advance).regs = s.regs := rfl
@[simp] theorem State.advance_mem : (s.advance).mem = s.mem := rfl
@[simp] theorem State.advance_pc : (s.advance).pc = s.pc + 1 := rfl
@[simp] theorem State.advance_status : (s.advance).status = s.status := rfl
@[simp] theorem State.advance_program : (s.advance).program = s.program := rfl
@[simp] theorem State.advance_out : (s.advance).out = s.out := rfl

@[simp] theorem State.setMem_regs (m : Memory) : (s.setMem m).regs = s.regs := rfl
@[simp] theorem State.setMem_mem (m : Memory) : (s.setMem m).mem = m := rfl
@[simp] theorem State.setMem_pc (m : Memory) : (s.setMem m).pc = s.pc := rfl
@[simp] theorem State.setMem_status (m : Memory) : (s.setMem m).status = s.status := rfl
@[simp] theorem State.setMem_program (m : Memory) : (s.setMem m).program = s.program := rfl
@[simp] theorem State.setMem_out (m : Memory) : (s.setMem m).out = s.out := rfl

@[simp] theorem halt_regs : (halt s).regs = s.regs := rfl
@[simp] theorem halt_mem : (halt s).mem = s.mem := rfl
@[simp] theorem halt_pc : (halt s).pc = s.pc := rfl
@[simp] theorem halt_status : (halt s).status = .halted := rfl
@[simp] theorem halt_program : (halt s).program = s.program := rfl
@[simp] theorem halt_out : (halt s).out = s.out := rfl

@[simp] theorem takeFault_regs (info : FaultInfo) : (takeFault info s).regs = s.regs := rfl
@[simp] theorem takeFault_mem (info : FaultInfo) : (takeFault info s).mem = s.mem := rfl
@[simp] theorem takeFault_pc (info : FaultInfo) : (takeFault info s).pc = s.pc := rfl
@[simp] theorem takeFault_status (info : FaultInfo) : (takeFault info s).status = .faulted info := rfl
@[simp] theorem takeFault_program (info : FaultInfo) : (takeFault info s).program = s.program := rfl
@[simp] theorem takeFault_out (info : FaultInfo) : (takeFault info s).out = .report { info := info, pc := s.pc, line := s.program[s.pc]? } :: s.out := rfl

/-- The register a checked field names. -/
theorem State.reg_mk (n : Nat) (h : n < 32) : s.reg ⟨n, h⟩ = s.regs[n] := rfl

/-- Reading a register after writing one (10_state R22: all registers are alike). -/
theorem State.reg_setReg (i j : Fin 32) (v : Word) : (s.setReg i v).reg j = if i = j then v else s.reg j := by
  simp [State.reg, State.setReg, Vector.getElem_set, Fin.ext_iff]

@[simp] theorem State.reg_setPc (t : Nat) (j : Fin 32) : (s.setPc t).reg j = s.reg j := rfl
@[simp] theorem State.reg_advance (j : Fin 32) : s.advance.reg j = s.reg j := rfl
@[simp] theorem State.reg_setMem (m : Memory) (j : Fin 32) : (s.setMem m).reg j = s.reg j := rfl
@[simp] theorem reg_takeFault (info : FaultInfo) (j : Fin 32) : (takeFault info s).reg j = s.reg j := rfl

/-- A register field that has passed the check names the register it reads. -/
theorem State.regAt_of_lt (n : Nat) (h : n < 32) : s.regAt n = s.reg ⟨n, h⟩ := by
  simp [State.regAt, State.reg, h]

end Sys2Proof.Machine
end

