-- ==== Sys2Proof/Laws/Memory.lean ====
section
/-! SUPPORT. The data memory: reads after writes, and that every operation keeps the canonical form. -/

namespace Sys2Proof.Machine

@[simp] theorem Memory.read_nil (a : Nat) : Memory.read [] a = Memory.blank := rfl

theorem Memory.read_cons (b : Nat) (v : Byte) (m : Memory) (a : Nat) :
    Memory.read ((b, v) :: m) a = if a = b then v else Memory.read m a := rfl

/-- The head, the tail and the bounds of a canonical memory. -/
theorem Memory.wfFrom_cons (lo a : Nat) (v : Byte) (m : Memory) :
    Memory.wfFrom lo ((a, v) :: m) = true ↔
      lo ≤ a ∧ a < 32 ∧ v ≠ Memory.blank ∧ Memory.wfFrom (a + 1) m = true := by
  simp [Memory.wfFrom, and_assoc]

theorem Memory.wfFrom_mono {lo lo' : Nat} (h : lo' ≤ lo) (m : Memory) (hm : Memory.wfFrom lo m = true) :
    Memory.wfFrom lo' m = true := by
  cases m with
  | nil => rfl
  | cons e m =>
    obtain ⟨a, v⟩ := e
    rw [Memory.wfFrom_cons] at hm ⊢
    exact ⟨h.trans hm.1, hm.2⟩

/-- Below its first address a canonical memory lists nothing. -/
theorem Memory.read_of_lt {lo a : Nat} (h : a < lo) (m : Memory) (hm : Memory.wfFrom lo m = true) :
    Memory.read m a = Memory.blank := by
  induction m generalizing lo with
  | nil => rfl
  | cons e m ih =>
    obtain ⟨b, v⟩ := e
    rw [Memory.wfFrom_cons] at hm
    rw [Memory.read_cons, if_neg (by omega)]
    exact ih (by omega) hm.2.2.2

/-- A byte write leaves every other byte alone, on any list. -/
theorem Memory.read_write_ne (m : Memory) {a c : Nat} (v : Byte) (h : c ≠ a) :
    (m.write a v).read c = m.read c := by
  induction m with
  | nil =>
    unfold Memory.write
    split
    · rfl
    · simp [Memory.read_cons, h]
  | cons e m ih =>
    obtain ⟨b, w⟩ := e
    unfold Memory.write
    split
    · split <;> simp [Memory.read_cons, h]
    · split
      · subst b
        split <;> simp [Memory.read_cons, h]
      · simp only [Memory.read_cons, ih]

/-- A byte write is read back, on a canonical memory. -/
theorem Memory.read_write_self_from {lo : Nat} (m : Memory) (hm : Memory.wfFrom lo m = true) (a : Nat) (v : Byte) :
    (m.write a v).read a = v := by
  induction m generalizing lo with
  | nil =>
    unfold Memory.write
    split
    · simp_all
    · simp [Memory.read_cons]
  | cons e m ih =>
    obtain ⟨b, w⟩ := e
    have hc := (Memory.wfFrom_cons ..).mp hm
    unfold Memory.write
    split
    · next hab =>
      split
      · next hv => rw [Memory.read_of_lt (lo := b) hab, hv]; rw [Memory.wfFrom_cons]; exact ⟨le_rfl, hc.2⟩
      · simp [Memory.read_cons]
    · split
      · next hab =>
        subst hab
        split
        · next hv => rw [hv]; exact Memory.read_of_lt (Nat.lt_succ_self _) m hc.2.2.2
        · simp [Memory.read_cons]
      · next hab => rw [Memory.read_cons, if_neg hab]; exact ih hc.2.2.2

theorem Memory.read_write_self (m : Memory) (hm : m.wf = true) (a : Nat) (v : Byte) : (m.write a v).read a = v :=
  Memory.read_write_self_from m hm a v

/-- A byte write keeps the canonical form. -/
theorem Memory.wfFrom_write {lo : Nat} (m : Memory) (hm : Memory.wfFrom lo m = true) {a : Nat} (v : Byte)
    (hlo : lo ≤ a) (ha : a < 32) : Memory.wfFrom lo (m.write a v) = true := by
  induction m generalizing lo with
  | nil =>
    unfold Memory.write
    split
    · rfl
    · next hv => rw [Memory.wfFrom_cons]; exact ⟨hlo, ha, hv, rfl⟩
  | cons e m ih =>
    obtain ⟨b, w⟩ := e
    have hc := (Memory.wfFrom_cons ..).mp hm
    unfold Memory.write
    split
    · next hab =>
      split
      · exact hm
      · next hv =>
        rw [Memory.wfFrom_cons, Memory.wfFrom_cons]
        exact ⟨hlo, ha, hv, hab, hc.2⟩
    · split
      · next hab =>
        subst hab
        split
        · exact Memory.wfFrom_mono (by omega) m hc.2.2.2
        · next hv => rw [Memory.wfFrom_cons]; exact ⟨hlo, ha, hv, hc.2.2.2⟩
      · rw [Memory.wfFrom_cons]
        exact ⟨hc.1, hc.2.1, hc.2.2.1, ih hc.2.2.2 (by omega)⟩

theorem Memory.wf_write (m : Memory) (hm : m.wf = true) {a : Nat} (v : Byte) (ha : a < 32) :
    (m.write a v).wf = true :=
  Memory.wfFrom_write m hm v (Nat.zero_le a) ha

/-- A word store keeps the canonical form wherever a word fits (20_memory R59). -/
theorem Memory.wf_writeWord (m : Memory) (hm : m.wf = true) {a : Nat} (v : Word) (ha : a ≤ 28) :
    (m.writeWord a v).wf = true :=
  Memory.wf_write _ (Memory.wf_write _ (Memory.wf_write _ (Memory.wf_write _ hm _ (by omega)) _ (by omega)) _ (by omega)) _
    (by omega)

/-- A word store leaves every byte outside its four alone, on any list. -/
theorem Memory.read_writeWord_outside (m : Memory) {a c : Nat} (v : Word) (h : c < a ∨ a + 3 < c) :
    (m.writeWord a v).read c = m.read c := by
  unfold Memory.writeWord
  iterate 4 rw [Memory.read_write_ne _ _ (by omega)]

/-- The four bytes of a word store, most significant first, on a canonical memory. -/
theorem Memory.read_writeWord_inside (m : Memory) (hm : m.wf = true) {a : Nat} (v : Word) (ha : a ≤ 28) {k : Nat} (hk : k < 4) :
    (m.writeWord a v).read (a + k) = byteOf v k := by
  have h1 := Memory.wf_write m hm (byteOf v 0) (show a < 32 by omega)
  have h2 := Memory.wf_write _ h1 (byteOf v 1) (show a + 1 < 32 by omega)
  have h3 := Memory.wf_write _ h2 (byteOf v 2) (show a + 2 < 32 by omega)
  unfold Memory.writeWord
  obtain rfl | rfl | rfl | rfl : k = 0 ∨ k = 1 ∨ k = 2 ∨ k = 3 := by omega
  · rw [Memory.read_write_ne _ _ (by omega), Memory.read_write_ne _ _ (by omega), Memory.read_write_ne _ _ (by omega)]
    exact Memory.read_write_self m hm a _
  · rw [Memory.read_write_ne _ _ (by omega), Memory.read_write_ne _ _ (by omega)]
    exact Memory.read_write_self _ h1 _ _
  · rw [Memory.read_write_ne _ _ (by omega)]
    exact Memory.read_write_self _ h2 _ _
  · exact Memory.read_write_self _ h3 _ _

/-- The reset memory is canonical. -/
theorem Memory.wf_reset : State.reset.mem.wf = true := rfl

theorem Memory.wf_foldl_write (l : List (Fin 32)) (f : Fin 32 → Byte) (m : Memory) (hm : m.wf = true) :
    (l.foldl (fun m i => m.write i.val (f i)) m).wf = true := by
  induction l generalizing m with
  | nil => exact hm
  | cons i l ih => exact ih _ (Memory.wf_write m hm _ i.isLt)

/-- A byte after a run of byte writes that gives each address one value. -/
theorem Memory.read_foldl_write (l : List (Fin 32)) (f : Fin 32 → Byte) (m : Memory) (hm : m.wf = true) (n : Fin 32) :
    (l.foldl (fun m i => m.write i.val (f i)) m).read n = if n ∈ l then f n else m.read n := by
  induction l generalizing m with
  | nil => simp
  | cons i l ih =>
    rw [List.foldl_cons, ih _ (Memory.wf_write _ hm _ i.isLt)]
    by_cases h : n ∈ l
    · simp [h]
    · by_cases hi : n = i
      · subst hi
        simpa [h] using Memory.read_write_self _ hm _ _
      · simp only [h, if_false, List.mem_cons, or_false, if_neg hi]
        exact Memory.read_write_ne _ _ (by omega)

/-- A launch memory is canonical. -/
theorem Memory.wf_ofBytes (v : Vector Byte 32) : (Memory.ofBytes v).wf = true :=
  Memory.wf_foldl_write _ (fun i => v[i]) [] rfl

@[simp] theorem launch_mem (regs : Vector Word 32) (bytes : Vector Byte 32) (p : List Line) :
    (launch regs bytes p).mem = Memory.ofBytes bytes := by
  simp only [launch]

@[simp] theorem load_mem (p : List Line) : (load p).mem = [] := rfl

/-- A byte of the dump. -/
theorem Memory.dump_getElem (m : Memory) (a : Nat) (h : a < 32) : m.dump[a] = m.read a := by
  simp [Memory.dump]

end Sys2Proof.Machine
end

