-- ==== Sys2Proof/Laws/Ops.lean ====
section
/-! SUPPORT. What each operand form can do, and from it what the Executor can do, each said once. -/

namespace Sys2Proof.Machine

variable {s : State} {a b c : Nat}

/-- `mask32` is the residue modulo 2^32 (00_scope R9). -/
theorem toNat_mask32 (v : Int) : ((mask32 v).toNat : Int) = v % 2 ^ 32 := by
  simp only [mask32, BitVec.toNat_ofInt]
  omega

/-- `zext32` keeps a value below 2^32 (00_scope R10). -/
theorem toNat_zext32 {v : Nat} (h : v < 2 ^ 32) : (zext32 v).toNat = v :=
  Nat.mod_eq_of_lt h

/-- Byte `k` of a word as a number (20_memory R52, R54). -/
theorem toNat_byteOf (v : Word) (k : Nat) : (byteOf v k).toNat = v.toNat / 2 ^ (8 * (3 - k)) % 256 := by
  simp [byteOf, Nat.shiftRight_eq_div_pow]

/-- A zero divisor raises (41_alu_reg R134). -/
theorem opDiv_of_zero {x y : Word} (h : y.toNat = 0) : opDiv x y = .error .divisionByZero :=
  if_pos h

/-- Any other divisor gives the truncating quotient, which masking does not change (41_alu_reg R134). -/
theorem opDiv_of_ne {x y : Word} (h : y.toNat ≠ 0) : ∃ v, v.toNat = x.toNat / y.toNat ∧ opDiv x y = .ok v := by
  refine ⟨mask32 ((x.toNat / y.toNat : Nat) : Int), ?_, if_neg h⟩
  have h1 := toNat_mask32 ((x.toNat / y.toNat : Nat) : Int)
  have h2 := Nat.div_le_self x.toNat y.toNat
  have h3 := x.isLt
  generalize x.toNat / y.toNat = q at *
  omega

/-! ## Each operand form where its registers exist, and where one does not -/

theorem execR_of_lt (op : Word → Word → Except Cause Word) (ha : a < 32) (hb : b < 32) (hc : c < 32) :
    execR op a b c s = finishAlu ⟨a, ha⟩ (op (s.reg ⟨b, hb⟩) (s.reg ⟨c, hc⟩)) s :=
  dif_pos ⟨ha, hb, hc⟩

theorem execR_of_not (op : Word → Word → Except Cause Word) (h : ¬(a < 32 ∧ b < 32 ∧ c < 32)) :
    execR op a b c s = raise .registerIndexOutOfBounds s :=
  dif_neg h

theorem execI_of_lt (op : Word → Word → Except Cause Word) (ha : a < 32) (hb : b < 32) :
    execI op a b c s = finishAlu ⟨a, ha⟩ (op (s.reg ⟨b, hb⟩) (zext32 c)) s :=
  dif_pos ⟨ha, hb⟩

theorem execI_of_not (op : Word → Word → Except Cause Word) (h : ¬(a < 32 ∧ b < 32)) :
    execI op a b c s = raise .registerIndexOutOfBounds s :=
  dif_neg h

theorem execB_of_lt (cond : Word → Word → Bool) (ha : a < 32) (hb : b < 32) :
    execB cond a b c s = .next (if cond (s.reg ⟨a, ha⟩) (s.reg ⟨b, hb⟩) then s.setPc c else s.advance) :=
  dif_pos ⟨ha, hb⟩

theorem execB_of_not (cond : Word → Word → Bool) (h : ¬(a < 32 ∧ b < 32)) :
    execB cond a b c s = raise .registerIndexOutOfBounds s :=
  dif_neg h

theorem execM_of_lt (body : Fin 32 → Nat → State → State) (ha : a < 32) (hb : b < 32)
    (h : effAddr ⟨b, hb⟩ c s ≤ 28) :
    execM body a b c s = .next (body ⟨a, ha⟩ (effAddr ⟨b, hb⟩ c s) s).advance := by
  simp [execM, ha, hb, checkAddr, show ¬32 ≤ effAddr ⟨b, hb⟩ c s by omega, show ¬28 < effAddr ⟨b, hb⟩ c s by omega]

theorem execM_of_overrun (body : Fin 32 → Nat → State → State) (ha : a < 32) (hb : b < 32)
    (h : 28 < effAddr ⟨b, hb⟩ c s) (h' : effAddr ⟨b, hb⟩ c s < 32) :
    execM body a b c s = raise .memoryWordOverrun s := by
  simp [execM, ha, hb, checkAddr, show ¬32 ≤ effAddr ⟨b, hb⟩ c s by omega, h]

theorem execM_of_outside (body : Fin 32 → Nat → State → State) (ha : a < 32) (hb : b < 32)
    (h : 32 ≤ effAddr ⟨b, hb⟩ c s) : execM body a b c s = raise .memoryAddressOutOfBounds s := by
  simp [execM, ha, hb, checkAddr, h]

theorem execM_of_not (body : Fin 32 → Nat → State → State) (h : ¬(a < 32 ∧ b < 32)) :
    execM body a b c s = raise .registerIndexOutOfBounds s :=
  dif_neg h

/-! ## Everything a form can do -/

theorem finishAlu_cases (d : Fin 32) (r : Except Cause Word) :
    (∃ k, finishAlu d r s = raise k s) ∨ ∃ v, finishAlu d r s = .next (s.setReg d v).advance := by
  cases r with
  | error k => exact .inl ⟨k, rfl⟩
  | ok v => exact .inr ⟨v, rfl⟩

theorem execR_cases (op : Word → Word → Except Cause Word) :
    (∃ k, execR op a b c s = raise k s) ∨
      ∃ (h : a < 32) (v : Word), execR op a b c s = .next (s.setReg ⟨a, h⟩ v).advance := by
  by_cases h : a < 32 ∧ b < 32 ∧ c < 32
  · rw [execR_of_lt op h.1 h.2.1 h.2.2]
    exact (finishAlu_cases _ _).imp_right fun ⟨v, hv⟩ => ⟨h.1, v, hv⟩
  · exact .inl ⟨_, execR_of_not op h⟩

theorem execI_cases (op : Word → Word → Except Cause Word) :
    (∃ k, execI op a b c s = raise k s) ∨
      ∃ (h : a < 32) (v : Word), execI op a b c s = .next (s.setReg ⟨a, h⟩ v).advance := by
  by_cases h : a < 32 ∧ b < 32
  · rw [execI_of_lt op h.1 h.2]
    exact (finishAlu_cases _ _).imp_right fun ⟨v, hv⟩ => ⟨h.1, v, hv⟩
  · exact .inl ⟨_, execI_of_not op h⟩

theorem execB_cases (cond : Word → Word → Bool) :
    (∃ k, execB cond a b c s = raise k s) ∨
      ∃ t, (t = c ∨ t = s.pc + 1) ∧ execB cond a b c s = .next (s.setPc t) := by
  by_cases h : a < 32 ∧ b < 32
  · rw [execB_of_lt cond h.1 h.2]
    right
    split
    · exact ⟨c, .inl rfl, rfl⟩
    · exact ⟨_, .inr rfl, rfl⟩
  · exact .inl ⟨_, execB_of_not cond h⟩

theorem execM_cases (body : Fin 32 → Nat → State → State) :
    (∃ k, execM body a b c s = raise k s) ∨
      ∃ (h : a < 32) (e : Nat), e ≤ 28 ∧ execM body a b c s = .next (body ⟨a, h⟩ e s).advance := by
  by_cases h : a < 32 ∧ b < 32
  · by_cases h1 : 32 ≤ effAddr ⟨b, h.2⟩ c s
    · exact .inl ⟨_, execM_of_outside body h.1 h.2 h1⟩
    · by_cases h2 : 28 < effAddr ⟨b, h.2⟩ c s
      · exact .inl ⟨_, execM_of_overrun body h.1 h.2 h2 (by omega)⟩
      · exact .inr ⟨h.1, _, by omega, execM_of_lt body h.1 h.2 (by omega)⟩
  · exact .inl ⟨_, execM_of_not body h⟩

theorem badFunctionR_cases : ∃ k, badFunctionR a b c s = raise k s := by
  unfold badFunctionR
  split <;> exact ⟨_, rfl⟩

theorem badFunctionIB_cases : ∃ k, badFunctionIB a b s = raise k s := by
  unfold badFunctionIB
  split <;> exact ⟨_, rfl⟩

/-- Everything the Executor can do to a state, one constructor per shape of effect. -/
inductive Effect (i : Instr) (s : State) : State → Prop where
  /-- It takes a fault. -/
  | raised (k : Cause) : Effect i s (takeFault (.executionError k) s)
  /-- It writes the register its `arg1` names and advances. -/
  | wrote (d : Fin 32) (v : Word) (h : i.fields.arg1 = d) : Effect i s (s.setReg d v).advance
  /-- A branch sets the pc to its target or to the next line. -/
  | branched (t : Nat) (h : t = i.fields.arg3 ∨ t = s.pc + 1) (op : i.fields.opCode = 3) : Effect i s (s.setPc t)
  /-- A store writes a word that fits and advances. -/
  | stored (e : Nat) (v : Word) (he : e ≤ 28) (op : i.fields.opCode = 5) :
    Effect i s (s.setMem (s.mem.writeWord e v)).advance

/-- What the Executor can do, said once: it always answers a next state, by one of the effects. -/
theorem exec_effect (i : Instr) (s : State) : ∃ t, exec i s = .next t ∧ Effect i s t := by
  cases i
  case add | sub | mul | div | and | or | xor =>
    all_goals
      rcases execR_cases (s := s) _ with ⟨k, h⟩ | ⟨ha, v, h⟩
      · exact ⟨_, h, .raised k⟩
      · exact ⟨_, h, .wrote _ v rfl⟩
  case addi | subi | muli | divi | andi | ori | xori =>
    all_goals
      rcases execI_cases (s := s) _ with ⟨k, h⟩ | ⟨ha, v, h⟩
      · exact ⟨_, h, .raised k⟩
      · exact ⟨_, h, .wrote _ v rfl⟩
  case beq | bne | blt | bgt =>
    all_goals
      rcases execB_cases (s := s) _ with ⟨k, h⟩ | ⟨t, ht, h⟩
      · exact ⟨_, h, .raised k⟩
      · exact ⟨_, h, .branched t ht rfl⟩
  case lw a b c =>
    rcases execM_cases (s := s) (a := a) (b := b) (c := c) loadWord with ⟨k, h⟩ | ⟨ha, e, -, h⟩
    · exact ⟨_, h, .raised k⟩
    · exact ⟨_, h, .wrote _ _ rfl⟩
  case sw a b c =>
    rcases execM_cases (s := s) (a := a) (b := b) (c := c) storeWord with ⟨k, h⟩ | ⟨ha, e, he, h⟩
    · exact ⟨_, h, .raised k⟩
    · exact ⟨_, h, .stored e _ he rfl⟩
  case illegalOp0 | illegalOp6 | illegalOp7 => all_goals exact ⟨_, rfl, .raised _⟩
  case illegalOp1Fn0 =>
    obtain ⟨k, h⟩ := badFunctionR_cases (s := s)
    exact ⟨_, h, .raised k⟩
  case illegalOp2Fn0 | illegalOp3Fn0 | illegalOp3Fn5 | illegalOp3Fn6Fn7 =>
    all_goals
      obtain ⟨k, h⟩ := badFunctionIB_cases (s := s)
      exact ⟨_, h, .raised k⟩

/-- The inversion of the Executor. -/
theorem effect_of_exec {i : Instr} {s t : State} (h : exec i s = .next t) : Effect i s t := by
  obtain ⟨u, hu, e⟩ := exec_effect i s
  rw [h] at hu
  cases hu
  exact e

end Sys2Proof.Machine
end

