-- ==== Sys2Proof/Laws/PerInstr.lean ====
section
/-! SUPPORT. Per-instruction laws about the instruction as syntax. -/

namespace Sys2Proof.Laws.FieldsRoundTrip

/-- The opcode map reads back the fields of a well-formed instruction as that instruction (30_encoding R90, R92). -/
def Statement (i : Instr) : Prop :=
  i.wf = true → i.fields.toInstr = i

theorem add (a b c : Nat) : Statement (.add a b c) := fun _ => rfl
theorem sub (a b c : Nat) : Statement (.sub a b c) := fun _ => rfl
theorem mul (a b c : Nat) : Statement (.mul a b c) := fun _ => rfl
theorem div (a b c : Nat) : Statement (.div a b c) := fun _ => rfl
theorem and (a b c : Nat) : Statement (.and a b c) := fun _ => rfl
theorem or (a b c : Nat) : Statement (.or a b c) := fun _ => rfl
theorem xor (a b c : Nat) : Statement (.xor a b c) := fun _ => rfl
theorem addi (a b c : Nat) : Statement (.addi a b c) := fun _ => rfl
theorem subi (a b c : Nat) : Statement (.subi a b c) := fun _ => rfl
theorem muli (a b c : Nat) : Statement (.muli a b c) := fun _ => rfl
theorem divi (a b c : Nat) : Statement (.divi a b c) := fun _ => rfl
theorem andi (a b c : Nat) : Statement (.andi a b c) := fun _ => rfl
theorem ori (a b c : Nat) : Statement (.ori a b c) := fun _ => rfl
theorem xori (a b c : Nat) : Statement (.xori a b c) := fun _ => rfl
theorem beq (a b c : Nat) : Statement (.beq a b c) := fun _ => rfl
theorem bne (a b c : Nat) : Statement (.bne a b c) := fun _ => rfl
theorem blt (a b c : Nat) : Statement (.blt a b c) := fun _ => rfl
theorem bgt (a b c : Nat) : Statement (.bgt a b c) := fun _ => rfl
theorem lw (a b c : Nat) : Statement (.lw a b c) := fun _ => rfl
theorem sw (a b c : Nat) : Statement (.sw a b c) := fun _ => rfl
theorem illegalOp0 (a b c f : Nat) : Statement (.illegalOp0 a b c f) := fun _ => rfl
theorem illegalOp6 (a b c : Nat) : Statement (.illegalOp6 a b c) := fun _ => rfl
theorem illegalOp7 (a b c : Nat) : Statement (.illegalOp7 a b c) := fun _ => rfl
theorem illegalOp1Fn0 (a b c : Nat) : Statement (.illegalOp1Fn0 a b c) := fun _ => rfl
theorem illegalOp2Fn0 (a b c : Nat) : Statement (.illegalOp2Fn0 a b c) := fun _ => rfl
theorem illegalOp3Fn0 (a b c : Nat) : Statement (.illegalOp3Fn0 a b c) := fun _ => rfl
theorem illegalOp3Fn5 (a b c : Nat) : Statement (.illegalOp3Fn5 a b c) := fun _ => rfl
theorem illegalOp3Fn6Fn7 (a b c f : Nat) : Statement (.illegalOp3Fn6Fn7 a b c f) := by
  intro h
  have hf : f = 6 ∨ f = 7 := by
    obtain ⟨⟨-, -, -, -, h8, -⟩, h6⟩ := (Instr.wf_illegalOp3Fn6Fn7 ..).mp h
    omega
  rcases hf with rfl | rfl <;> rfl

end Sys2Proof.Laws.FieldsRoundTrip
end

