-- ==== Sys2Proof/Laws/Step.lean ====
section
/-! SUPPORT. What one step can do, said once. -/

namespace Sys2Proof.Machine

/-- The Executor, by its effect, leaves the program store alone, and the outputs and the status too unless it takes a
fault. -/
theorem Effect.program {i : Instr} {s t : State} (e : Effect i s t) : t.program = s.program := by
  cases e <;> rfl

/-- A fault, or neither the status nor the outputs changed. -/
theorem Effect.status_cases {i : Instr} {s t : State} (e : Effect i s t) :
    (∃ k, t = takeFault (.executionError k) s) ∨ (t.status = s.status ∧ t.out = s.out) := by
  cases e with
  | raised k => exact .inl ⟨k, rfl⟩
  | wrote | branched | stored => exact .inr ⟨rfl, rfl⟩

theorem emitTrace_of_running (i : Instr) {s : State} (h : s.status = .running) :
    emitTrace i s = { s with out := .trace (traceRecord i s) :: s.out } := by
  simp [emitTrace, h]

theorem emitTrace_of_faulted (i : Instr) {s : State} {info : FaultInfo} (h : s.status = .faulted info) :
    emitTrace i s = s := by
  simp [emitTrace, h]

/-- Everything a step can do, one constructor per outcome of 45_fetch_step R211. -/
inductive Cycle (s : State) : State → Prop where
  /-- No cycle runs: the run has ended. -/
  | held (h : s.status ≠ .running) : Cycle s s
  /-- The pc is out of range. -/
  | halted (h : s.status = .running) (hpc : s.program.length ≤ s.pc) : Cycle s (halt s)
  /-- The line at the pc does not decode. -/
  | malformed (h : s.status = .running) (line : Line) (hf : s.program[s.pc]? = some line)
      (hd : decode line = .error (.malformedLine line)) : Cycle s (takeFault (.decodeError line) s)
  /-- The instruction raises. -/
  | raised (h : s.status = .running) (line : Line) (hf : s.program[s.pc]? = some line) (i : Instr)
      (hd : decode line = .ok i) (k : Cause) (hx : exec i s = .next (takeFault (.executionError k) s)) :
      Cycle s (takeFault (.executionError k) s)
  /-- The instruction completes, and its trace record is put out. -/
  | completed (h : s.status = .running) (line : Line) (hf : s.program[s.pc]? = some line) (i : Instr)
      (hd : decode line = .ok i) (u : State) (hx : exec i s = .next u) (hu : u.status = .running)
      (ho : u.out = s.out) : Cycle s { u with out := .trace (traceRecord i u) :: s.out }

theorem decode_error_eq {line l : Line} (h : decode line = .error (.malformedLine l)) : l = line := by
  unfold decode at h
  split at h
  · cases h
  · injection h with h
    injection h with h
    exact h.symm

theorem step_of_not_running {s : State} (h : s.status ≠ .running) : step s = .next s := by
  unfold step
  split
  · rfl
  · rfl
  · contradiction

/-- The step always answers a next state, by one of the outcomes. -/
theorem step_cycle (s : State) : ∃ t, step s = .next t ∧ Cycle s t := by
  by_cases hs : s.status = .running
  · unfold step
    simp only [hs]
    cases hf : fetch s with
    | none => exact ⟨_, rfl, .halted hs (by simpa [fetch] using hf)⟩
    | some line =>
      cases hd : decode line with
      | error e =>
        obtain ⟨l⟩ := e
        obtain rfl := decode_error_eq hd
        exact ⟨_, by simp only [hd], .malformed hs l hf hd⟩
      | ok i =>
        obtain ⟨u, hu, e⟩ := exec_effect i s
        simp only [hd, hu, commit]
        rcases e.status_cases with ⟨k, rfl⟩ | ⟨h1, h2⟩
        · rw [emitTrace_of_faulted i rfl]
          exact ⟨_, rfl, .raised hs line hf i hd k hu⟩
        · rw [emitTrace_of_running i (h1.trans hs), h2]
          exact ⟨_, rfl, .completed hs line hf i hd u hu (h1.trans hs) h2⟩
  · exact ⟨s, step_of_not_running hs, .held hs⟩

/-- The inversion of the step. -/
theorem cycle_of_step {s t : State} (h : step s = .next t) : Cycle s t := by
  obtain ⟨u, hu, c⟩ := step_cycle s
  rw [h] at hu
  cases hu
  exact c

/-- A fetched line stands below `N`. -/
theorem lt_length_of_fetched {s : State} {line : Line} (h : s.program[s.pc]? = some line) : s.pc < s.program.length :=
  (List.getElem?_eq_some_iff.mp h).1

/-! ## Runs of the host's interface -/

theorem run_succ (M : Host.Core) (k : Nat) (s : M.State) :
    M.run (k + 1) s =
      match M.step s with
      | .next s' => M.run k s'
      | .fault r => .fault r
      | .refused r => .refused r := rfl

theorem run_succ_of_step {k : Nat} {s u : State} (h : step s = .next u) :
    Host.Core.run core (k + 1) s = Host.Core.run core k u := by
  refine (run_succ core k s).trans ?_
  rw [show core.step s = .next u from h]

/-- An ended run stays where it is. -/
theorem run_of_not_running (k : Nat) {s : State} (h : s.status ≠ .running) : Host.Core.run core k s = .next s := by
  induction k with
  | zero => rfl
  | succ k ih => rw [run_succ_of_step (step_of_not_running h), ih]

end Sys2Proof.Machine
end

