-- ==== Sys2Proof/Tests/Slice0.lean ====
section
/-! SUPPORT. The model's own tests: expected results are those of spec/95_test_vectors.md and 40_decoder section 6, or are
worked out by hand from the rule named. -/

namespace Sys2Proof.Tests

open Sys2Proof.Machine

/-! ## Well-formedness: an ill-formed term for each check, and one that passes all -/

theorem test_wf_accepts : (Instr.add 63 63 63).wf = true := by decide
theorem test_wf_refuses_arg1 : (Instr.add 64 0 0).wf = false := by decide
theorem test_wf_refuses_arg2 : (Instr.lw 0 64 0).wf = false := by decide
theorem test_wf_refuses_arg3_register : (Instr.add 0 0 64).wf = false := by decide
theorem test_wf_refuses_arg3_immediate : (Instr.addi 0 0 4096).wf = false := by decide
theorem test_wf_accepts_arg3_immediate : (Instr.addi 0 0 4095).wf = true := by decide
theorem test_wf_refuses_function : (Instr.illegalOp0 0 0 0 8).wf = false := by decide
theorem test_wf_refuses_fn6_fn7_row : (Instr.illegalOp3Fn6Fn7 0 0 0 5).wf = false := by decide
theorem test_wf_refuses_op_code : (Decoded.mk 8 0 0 0 0).wf = false := by decide
theorem test_wf_refuses_function_of_memory : (Decoded.mk 4 0 0 0 1).wf = false := by decide

/-! ## Decoding: one word per row, written out bit by bit from 30_encoding R84 -/

theorem test_decode_add : decodeTableWord 33 0b001_000011_000001_000010_000000_001_000 = some (.add 3 1 2) := by decide
theorem test_decode_sub : decodeTableWord 33 0b001_000011_000001_000010_000000_010_000 = some (.sub 3 1 2) := by decide
theorem test_decode_mul : decodeTableWord 33 0b001_000011_000001_000010_000000_011_000 = some (.mul 3 1 2) := by decide
theorem test_decode_div : decodeTableWord 33 0b001_000011_000001_000010_000000_100_000 = some (.div 3 1 2) := by decide
theorem test_decode_and : decodeTableWord 33 0b001_000011_000001_000010_000000_101_000 = some (.and 3 1 2) := by decide
theorem test_decode_or : decodeTableWord 33 0b001_000011_000001_000010_000000_110_000 = some (.or 3 1 2) := by decide
theorem test_decode_xor : decodeTableWord 33 0b001_000011_000001_000010_000000_111_000 = some (.xor 3 1 2) := by decide
theorem test_decode_addi : decodeTableWord 33 0b010_000001_000000_000000000101_001_000 = some (.addi 1 0 5) := by decide
theorem test_decode_subi : decodeTableWord 33 0b010_000001_000001_000000000001_010_000 = some (.subi 1 1 1) := by decide
theorem test_decode_muli : decodeTableWord 33 0b010_000010_000001_111111111111_011_000 = some (.muli 2 1 4095) := by decide
theorem test_decode_divi : decodeTableWord 33 0b010_000010_000001_000000000111_100_000 = some (.divi 2 1 7) := by decide
theorem test_decode_andi : decodeTableWord 33 0b010_000010_000001_000011111111_101_000 = some (.andi 2 1 255) := by decide
theorem test_decode_ori : decodeTableWord 33 0b010_000010_000001_111100000000_110_000 = some (.ori 2 1 3840) := by decide
theorem test_decode_xori : decodeTableWord 33 0b010_000010_000001_111111111111_111_000 = some (.xori 2 1 4095) := by decide
theorem test_decode_beq : decodeTableWord 33 0b011_000001_000010_000001100100_001_000 = some (.beq 1 2 100) := by decide
theorem test_decode_bne : decodeTableWord 33 0b011_000001_000010_000001100100_010_000 = some (.bne 1 2 100) := by decide
theorem test_decode_blt : decodeTableWord 33 0b011_000001_000010_000001100100_011_000 = some (.blt 1 2 100) := by decide
theorem test_decode_bgt : decodeTableWord 33 0b011_000001_000010_000001100100_100_000 = some (.bgt 1 2 100) := by decide
theorem test_decode_lw : decodeTableWord 33 0b100_000010_000001_000000000101_111111 = some (.lw 2 1 5) := by decide
theorem test_decode_sw : decodeTableWord 33 0b101_000010_000001_000000000101_000000 = some (.sw 2 1 5) := by decide
theorem test_decode_illegalOp0 : decodeTableWord 33 0b000_000001_000010_000000000011_001_000 = some (.illegalOp0 1 2 3 1) := by decide
theorem test_decode_illegalOp6 : decodeTableWord 33 0b110_000001_000010_000000000011_000000 = some (.illegalOp6 1 2 3) := by decide
theorem test_decode_illegalOp7 : decodeTableWord 33 0b111_111111_111111_111111111111_111111 = some (.illegalOp7 63 63 4095) := by decide
theorem test_decode_illegalOp1Fn0 : decodeTableWord 33 0b001_000000_000000_001000_000000_000_100 = some (.illegalOp1Fn0 0 0 8) := by decide
theorem test_decode_illegalOp2Fn0 : decodeTableWord 33 0b010_001000_000001_000000000101_000_000 = some (.illegalOp2Fn0 8 1 5) := by decide
theorem test_decode_illegalOp3Fn0 : decodeTableWord 33 0b011_000001_000010_000001100100_000_000 = some (.illegalOp3Fn0 1 2 100) := by decide
theorem test_decode_illegalOp3Fn5 : decodeTableWord 33 0b011_000001_000010_000001100100_101_000 = some (.illegalOp3Fn5 1 2 100) := by decide
theorem test_decode_illegalOp3Fn6 : decodeTableWord 33 0b011_000001_000010_000001100100_110_000 = some (.illegalOp3Fn6Fn7 1 2 100 6) := by decide
theorem test_decode_illegalOp3Fn7 : decodeTableWord 33 0b011_000001_000010_000001100100_111_000 = some (.illegalOp3Fn6Fn7 1 2 100 7) := by decide

/-! ## Decoding lines that are not canonical (40_decoder section 6, 95_test_vectors 2.1) -/

theorem test_decode_27_characters : decodeFields "001000011000001000010001000".toList = some ⟨1, 3, 1, 2, 1⟩ := by decide
theorem test_decode_21_characters : decodeFields "001000011000001000010".toList = some ⟨1, 3, 1, 2, 0⟩ := by decide
theorem test_decode_20_characters : decodeFields "00100001100000100001".toList = none := by decide
theorem test_decode_26_characters : decodeFields "01000000100000000000000010".toList = none := by decide
theorem test_decode_overlapping_function :
    decodeFields "010000001000000000000101000".toList = some ⟨2, 1, 0, 40, 5⟩ := by decide
theorem test_decode_ignores_last_characters :
    decodeFields "010000001000000000000000101001002".toList = some ⟨2, 1, 0, 5, 1⟩ := by decide
theorem test_decode_ignores_gap_in_format_R :
    decodeFields "00100001100000100001000z000001000".toList = some ⟨1, 3, 1, 2, 1⟩ := by decide
theorem test_decode_refuses_function :
    decodeFields "010000001000000000000000101021000".toList = none := by decide
theorem test_decode_refuses_op_code :
    decode "012000001000000000000000101001000".toList =
      .error (.malformedLine "012000001000000000000000101001000".toList) := by decide
theorem test_decode_refuses_arg3 : decodeFields "01000000100000000000000x101001000".toList = none := by decide
theorem test_decode_empty : decode [] = .error (.malformedLine []) := by decide
theorem test_decode_two_characters : decodeFields "01".toList = none := by decide
theorem test_table_word_too_wide : decodeTableWord 40 (2 ^ 33) = none := by decide

theorem test_encode_add :
    encode (.add 3 1 2) = "001000011000001000010000000001000".toList := by decide
theorem test_encode_sw :
    encode (.sw 10 9 3) = "101001010001001000000000011000000".toList := by decide
theorem test_assembly_lw : (Instr.lw 2 1 5).assembly = some "LW r2, 5(r1)" := by decide

/-! ## Executing (95_test_vectors 2.2 to 2.6) -/

/-- The start state of 95_test_vectors 2.2 and 2.3, with `pc` as given (10 in 2.4). -/
def alu (pc : Nat) : State :=
  { State.reset with
    pc := pc
    regs := ((((((State.reset.regs.set 1 0xFFFFFFFF).set 2 1).set 3 0x80000000).set 5 7).set 6 2).set 7 0x10000) }

/-- The start state of 95_test_vectors 2.5: `mem[k] = 0x10 + k`. -/
def ldst : State :=
  { State.reset with
    regs := (((State.reset.regs.set 1 0xFFFFFFFF).set 2 1).set 9 26).set 10 0xCAFEF00D
    mem := Memory.ofBytes (Vector.ofFn fun i => BitVec.ofNat 8 (16 + i.val)) }

/-- What a test reads of a result. -/
def look {α : Type} (f : State → α) (r : Result) : Option α :=
  match r with
  | .next t => some (f t)
  | .fault _ => none
  | .refused _ => none

/-- A completed cycle: register `n`, the pc and the status. -/
def regPc (n : Nat) (r : Result) : Option (Word × Nat × RunStatus) :=
  look (fun t => (t.regAt n, t.pc, t.status)) r

/-- The pc and the status. -/
def pcStatus (r : Result) : Option (Nat × RunStatus) :=
  look (fun t => (t.pc, t.status)) r

/-- The status of an `ExecutionError`. -/
def raised (c : Cause) : RunStatus := .faulted (.executionError c)

theorem test_add_wraps : regPc 8 (exec (.add 8 1 2) (alu 0)) = some (0, 1, .running) := by decide
theorem test_add_in_place : regPc 1 (exec (.add 1 1 1) (alu 0)) = some (0xFFFFFFFE, 1, .running) := by decide
theorem test_sub_borrows : regPc 8 (exec (.sub 8 4 2) (alu 0)) = some (0xFFFFFFFF, 1, .running) := by decide
theorem test_sub_order : regPc 8 (exec (.sub 8 2 1) (alu 0)) = some (2, 1, .running) := by decide
theorem test_mul_wraps : regPc 8 (exec (.mul 8 7 7) (alu 0)) = some (0, 1, .running) := by decide
theorem test_mul_low_half : regPc 8 (exec (.mul 8 1 1) (alu 0)) = some (1, 1, .running) := by decide
theorem test_div_unsigned : regPc 8 (exec (.div 8 1 6) (alu 0)) = some (0x7FFFFFFF, 1, .running) := by decide
theorem test_div_by_zero : pcStatus (exec (.div 8 4 4) (alu 0)) = some (0, raised .divisionByZero) := by decide
theorem test_and : regPc 8 (exec (.and 8 1 3) (alu 0)) = some (0x80000000, 1, .running) := by decide
theorem test_and_register_32 : pcStatus (exec (.and 8 1 32) (alu 0)) = some (0, raised .registerIndexOutOfBounds) := by decide
theorem test_or : regPc 8 (exec (.or 8 3 2) (alu 0)) = some (0x80000001, 1, .running) := by decide
theorem test_or_register_63 : pcStatus (exec (.or 63 1 2) (alu 0)) = some (0, raised .registerIndexOutOfBounds) := by decide
theorem test_xor : regPc 8 (exec (.xor 8 1 3) (alu 0)) = some (0x7FFFFFFF, 1, .running) := by decide
theorem test_xor_clears : regPc 1 (exec (.xor 1 1 1) (alu 0)) = some (0, 1, .running) := by decide
theorem test_addi_zero_extends : regPc 8 (exec (.addi 8 4 4095) (alu 0)) = some (0xFFF, 1, .running) := by decide
theorem test_addi_wraps : regPc 8 (exec (.addi 8 1 4095) (alu 0)) = some (0xFFE, 1, .running) := by decide
theorem test_subi : regPc 8 (exec (.subi 8 5 4095) (alu 0)) = some (0xFFFFF008, 1, .running) := by decide
theorem test_subi_register_32 : pcStatus (exec (.subi 8 32 5) (alu 0)) = some (0, raised .registerIndexOutOfBounds) := by decide
theorem test_muli : regPc 8 (exec (.muli 8 1 4095) (alu 0)) = some (0xFFFFF001, 1, .running) := by decide
theorem test_muli_wraps : regPc 8 (exec (.muli 8 3 2) (alu 0)) = some (0, 1, .running) := by decide
theorem test_divi : regPc 8 (exec (.divi 8 1 4095) (alu 0)) = some (0x00100100, 1, .running) := by decide
theorem test_divi_by_zero : pcStatus (exec (.divi 8 5 0) (alu 0)) = some (0, raised .divisionByZero) := by decide
theorem test_andi : regPc 8 (exec (.andi 8 1 0xFFF) (alu 0)) = some (0xFFF, 1, .running) := by decide
theorem test_ori : regPc 8 (exec (.ori 8 3 0xFFF) (alu 0)) = some (0x80000FFF, 1, .running) := by decide
theorem test_xori : regPc 8 (exec (.xori 8 1 0xFFF) (alu 0)) = some (0xFFFFF000, 1, .running) := by decide
theorem test_beq_not_taken : pcStatus (exec (.beq 1 2 100) (alu 10)) = some (11, .running) := by decide
theorem test_beq_taken : pcStatus (exec (.beq 5 5 100) (alu 10)) = some (100, .running) := by decide
theorem test_bne_taken : pcStatus (exec (.bne 1 2 100) (alu 10)) = some (100, .running) := by decide
theorem test_bne_not_taken : pcStatus (exec (.bne 5 5 100) (alu 10)) = some (11, .running) := by decide
theorem test_blt_unsigned : pcStatus (exec (.blt 1 2 100) (alu 10)) = some (11, .running) := by decide
theorem test_blt_taken : pcStatus (exec (.blt 2 1 100) (alu 10)) = some (100, .running) := by decide
theorem test_bgt_unsigned : pcStatus (exec (.bgt 1 2 100) (alu 10)) = some (100, .running) := by decide
theorem test_bgt_equal : pcStatus (exec (.bgt 5 5 100) (alu 10)) = some (11, .running) := by decide
theorem test_lw_last_word : regPc 8 (exec (.lw 8 9 2) (ldst)) = some (0x2C2D2E2F, 1, .running) := by decide
theorem test_lw_into_its_base : regPc 9 (exec (.lw 9 9 1) (ldst)) = some (0x2B2C2D2E, 1, .running) := by decide
theorem test_lw_overruns_at_29 : pcStatus (exec (.lw 8 9 3) (ldst)) = some (0, raised .memoryWordOverrun) := by decide
theorem test_lw_does_not_wrap : pcStatus (exec (.lw 2 1 1) (ldst)) = some (0, raised .memoryAddressOutOfBounds) := by decide
theorem test_sw_big_endian :
    look (fun t => (t.mem.dump.toList.take 7, t.pc, t.regAt 10)) (exec (.sw 10 2 1) ldst) =
      some ([0x10, 0x11, 0xCA, 0xFE, 0xF0, 0x0D, 0x16], 1, 0xCAFEF00D) := by decide
theorem test_sw_overrun_writes_nothing :
    look (fun t => (t.mem.dump.toList.drop 29, t.status)) (exec (.sw 10 9 3) ldst) =
      some ([0x2D, 0x2E, 0x2F], raised .memoryWordOverrun) := by decide
theorem test_sw_register_63 : pcStatus (exec (.sw 63 4 0) (ldst)) = some (0, raised .registerIndexOutOfBounds) := by decide
theorem test_sw_at_32 : pcStatus (exec (.sw 10 9 6) (ldst)) = some (0, raised .memoryAddressOutOfBounds) := by decide
theorem test_illegalOp0 : pcStatus (exec (.illegalOp0 63 63 4095 7) (alu 0)) = some (0, raised .unrecognizedOpcode) := by decide
theorem test_illegalOp6 : pcStatus (exec (.illegalOp6 63 63 4095) (alu 0)) = some (0, raised .unrecognizedOpcode) := by decide
theorem test_illegalOp7 : pcStatus (exec (.illegalOp7 63 63 4095) (alu 0)) = some (0, raised .unrecognizedOpcode) := by decide
theorem test_illegalOp1Fn0 : pcStatus (exec (.illegalOp1Fn0 8 1 2) (alu 0)) = some (0, raised .unrecognizedFunction) := by decide
theorem test_illegalOp1Fn0_register_first : pcStatus (exec (.illegalOp1Fn0 40 1 2) (alu 0)) = some (0, raised .registerIndexOutOfBounds) := by decide
theorem test_illegalOp2Fn0 : pcStatus (exec (.illegalOp2Fn0 8 1 4095) (alu 0)) = some (0, raised .unrecognizedFunction) := by decide
theorem test_illegalOp3Fn0 : pcStatus (exec (.illegalOp3Fn0 1 2 100) (alu 10)) = some (10, raised .unrecognizedFunction) := by decide
theorem test_illegalOp3Fn5 : pcStatus (exec (.illegalOp3Fn5 1 2 100) (alu 10)) = some (10, raised .unrecognizedFunction) := by decide
theorem test_illegalOp3Fn6Fn7 : pcStatus (exec (.illegalOp3Fn6Fn7 32 2 100 7) (alu 10)) = some (10, raised .registerIndexOutOfBounds) := by decide

/-! ## The step -/

/-- Every row's word, run as the first instruction after reset, is run by the step: here `ADDI r1, r0, 5`. -/
theorem test_step_first_instruction :
    regPc 1 (step (State.reset.withFetchWord 33 0b010_000001_000000_000000000101_001_000)) = some (5, 1, .running) := by
  decide

theorem test_step_emits_trace :
    look (fun t => (traceRecords t.out).map fun r => (r.newPc, r.decoded))
      (step (State.reset.withFetchWord 33 0b010_000001_000000_000000000101_001_000)) =
      some [(1, ⟨2, 1, 0, 5, 1⟩)] := by decide

/-- P6: the malformed line is reported and the pc stays. -/
theorem test_step_decode_error :
    pcStatus (step (load ["01000000100000000000000x101001000".toList])) =
      some (0, .faulted (.decodeError "01000000100000000000000x101001000".toList)) := by decide

/-- P0: the empty program halts at once with no output. -/
theorem test_step_empty_program :
    look (fun t => (t.pc, t.status, t.out)) (step State.reset) = some (0, .halted, []) := by decide

theorem test_step_halted_holds :
    look (fun t => t) (step { State.reset with status := .halted }) = some { State.reset with status := .halted } := by
  decide

theorem test_with_fetch_word_past_the_end :
    pcStatus (step ((alu 3).withFetchWord 33 0b011_000101_000101_000001100100_001_000)) = some (100, .running) := by decide

theorem test_exit_status_of_fault : (raised .divisionByZero).exitStatus = some .nonZero := by decide
theorem test_cause_code_of_fault : (raised .memoryWordOverrun).causeCode = 6 := by decide
theorem test_load_words_canonical :
    (loadWords [0#33]).map (fun s => s.program.map canonicalLine) = some [true] := by decide
theorem test_reset_run_keeps_program :
    (resetRun { alu 3 with program := [[]] }).program = [[]] ∧ (resetRun (alu 3)).pc = 0 := by decide

/-! ## Witnesses: for each statement with hypotheses, concrete states and operands that meet them, clause by clause, at the
ends of their ranges -/

/-- `x[0]` and `x[31]` all ones, `x[1]` = 28, `x[2]` = 0; bytes `0x10 + k`. -/
def edge : State :=
  { ldst with regs := ((State.reset.regs.set 0 0xFFFFFFFF).set 31 0xFFFFFFFF).set 1 28 }

/-- `BEQ r0, r0, 0` alone in the program store: it runs for ever. -/
def loop : State := load ["011000000000000000000000000001000".toList]

/-- A line whose immediate has a character that is not binary. -/
def badLine : Line := "01000000100000000000000x101001000".toList

theorem witness_AddWritesSum :
    (31 < 32 ∧ regPc 31 (exec (.add 31 31 31) edge) = some (0xFFFFFFFE, 1, .running)) ∧
    (32 ≤ 32 ∧ pcStatus (exec (.add 32 31 31) edge) = some (0, raised .registerIndexOutOfBounds) ∧
      pcStatus (exec (.add 31 32 31) edge) = some (0, raised .registerIndexOutOfBounds) ∧
      pcStatus (exec (.add 31 31 32) edge) = some (0, raised .registerIndexOutOfBounds)) := by decide

theorem witness_SubWritesDifference :
    (31 < 32 ∧ regPc 31 (exec (.sub 31 31 31) edge) = some (0, 1, .running)) ∧
    (32 ≤ 32 ∧ pcStatus (exec (.sub 32 31 31) edge) = some (0, raised .registerIndexOutOfBounds) ∧
      pcStatus (exec (.sub 31 32 31) edge) = some (0, raised .registerIndexOutOfBounds) ∧
      pcStatus (exec (.sub 31 31 32) edge) = some (0, raised .registerIndexOutOfBounds)) := by decide

theorem witness_MulWritesProduct :
    (31 < 32 ∧ regPc 31 (exec (.mul 31 31 31) edge) = some (1, 1, .running)) ∧
    (32 ≤ 32 ∧ pcStatus (exec (.mul 32 31 31) edge) = some (0, raised .registerIndexOutOfBounds) ∧
      pcStatus (exec (.mul 31 32 31) edge) = some (0, raised .registerIndexOutOfBounds) ∧
      pcStatus (exec (.mul 31 31 32) edge) = some (0, raised .registerIndexOutOfBounds)) := by decide

theorem witness_AndWritesAnd :
    (31 < 32 ∧ regPc 31 (exec (.and 31 31 31) edge) = some (0xFFFFFFFF, 1, .running)) ∧
    (32 ≤ 32 ∧ pcStatus (exec (.and 32 31 31) edge) = some (0, raised .registerIndexOutOfBounds) ∧
      pcStatus (exec (.and 31 32 31) edge) = some (0, raised .registerIndexOutOfBounds) ∧
      pcStatus (exec (.and 31 31 32) edge) = some (0, raised .registerIndexOutOfBounds)) := by decide

theorem witness_OrWritesOr :
    (31 < 32 ∧ regPc 31 (exec (.or 31 31 31) edge) = some (0xFFFFFFFF, 1, .running)) ∧
    (32 ≤ 32 ∧ pcStatus (exec (.or 32 31 31) edge) = some (0, raised .registerIndexOutOfBounds) ∧
      pcStatus (exec (.or 31 32 31) edge) = some (0, raised .registerIndexOutOfBounds) ∧
      pcStatus (exec (.or 31 31 32) edge) = some (0, raised .registerIndexOutOfBounds)) := by decide

theorem witness_XorWritesXor :
    (31 < 32 ∧ regPc 31 (exec (.xor 31 31 31) edge) = some (0, 1, .running)) ∧
    (32 ≤ 32 ∧ pcStatus (exec (.xor 32 31 31) edge) = some (0, raised .registerIndexOutOfBounds) ∧
      pcStatus (exec (.xor 31 32 31) edge) = some (0, raised .registerIndexOutOfBounds) ∧
      pcStatus (exec (.xor 31 31 32) edge) = some (0, raised .registerIndexOutOfBounds)) := by decide

theorem witness_DivWritesQuotient :
    (edge.regs[31].toNat ≠ 0 ∧ regPc 31 (exec (.div 31 31 31) edge) = some (1, 1, .running)) ∧
    (edge.regs[2].toNat = 0 ∧ pcStatus (exec (.div 31 31 2) edge) = some (0, raised .divisionByZero)) ∧
    (32 ≤ 32 ∧ pcStatus (exec (.div 31 31 32) edge) = some (0, raised .registerIndexOutOfBounds)) := by decide

theorem witness_AddiWritesSum :
    (31 < 32 ∧ 4095 < 4096 ∧ regPc 31 (exec (.addi 31 31 4095) edge) = some (0x0FFE, 1, .running)) ∧
    (32 ≤ 32 ∧ pcStatus (exec (.addi 32 31 0) edge) = some (0, raised .registerIndexOutOfBounds) ∧
      pcStatus (exec (.addi 31 32 0) edge) = some (0, raised .registerIndexOutOfBounds)) := by decide

theorem witness_SubiWritesDifference :
    (31 < 32 ∧ 4095 < 4096 ∧ regPc 31 (exec (.subi 31 31 4095) edge) = some (0xFFFFF000, 1, .running)) ∧
    (32 ≤ 32 ∧ pcStatus (exec (.subi 32 31 0) edge) = some (0, raised .registerIndexOutOfBounds) ∧
      pcStatus (exec (.subi 31 32 0) edge) = some (0, raised .registerIndexOutOfBounds)) := by decide

theorem witness_MuliWritesProduct :
    (31 < 32 ∧ 4095 < 4096 ∧ regPc 31 (exec (.muli 31 31 4095) edge) = some (0xFFFFF001, 1, .running)) ∧
    (32 ≤ 32 ∧ pcStatus (exec (.muli 32 31 0) edge) = some (0, raised .registerIndexOutOfBounds) ∧
      pcStatus (exec (.muli 31 32 0) edge) = some (0, raised .registerIndexOutOfBounds)) := by decide

theorem witness_AndiWritesAnd :
    (31 < 32 ∧ 4095 < 4096 ∧ regPc 31 (exec (.andi 31 31 4095) edge) = some (0xFFF, 1, .running)) ∧
    (32 ≤ 32 ∧ pcStatus (exec (.andi 32 31 0) edge) = some (0, raised .registerIndexOutOfBounds) ∧
      pcStatus (exec (.andi 31 32 0) edge) = some (0, raised .registerIndexOutOfBounds)) := by decide

theorem witness_OriWritesOr :
    (31 < 32 ∧ 4095 < 4096 ∧ regPc 31 (exec (.ori 31 31 4095) edge) = some (0xFFFFFFFF, 1, .running)) ∧
    (32 ≤ 32 ∧ pcStatus (exec (.ori 32 31 0) edge) = some (0, raised .registerIndexOutOfBounds) ∧
      pcStatus (exec (.ori 31 32 0) edge) = some (0, raised .registerIndexOutOfBounds)) := by decide

theorem witness_XoriWritesXor :
    (31 < 32 ∧ 4095 < 4096 ∧ regPc 31 (exec (.xori 31 31 4095) edge) = some (0xFFFFF000, 1, .running)) ∧
    (32 ≤ 32 ∧ pcStatus (exec (.xori 32 31 0) edge) = some (0, raised .registerIndexOutOfBounds) ∧
      pcStatus (exec (.xori 31 32 0) edge) = some (0, raised .registerIndexOutOfBounds)) := by decide

theorem witness_DiviWritesQuotient :
    (4095 < 4096 ∧ 4095 ≠ 0 ∧ regPc 31 (exec (.divi 31 31 4095) edge) = some (0x00100100, 1, .running)) ∧
    (0 < 4096 ∧ pcStatus (exec (.divi 31 31 0) edge) = some (0, raised .divisionByZero)) ∧
    (32 ≤ 32 ∧ pcStatus (exec (.divi 31 32 0) edge) = some (0, raised .registerIndexOutOfBounds)) := by decide

theorem witness_BeqJumpsIfEqual :
    (31 < 32 ∧ 4095 < 4096 ∧ pcStatus (exec (.beq 31 0 4095) edge) = some (4095, .running) ∧
      pcStatus (exec (.beq 2 31 4095) edge) = some (1, .running) ∧
      pcStatus (exec (.beq 31 2 4095) edge) = some (1, .running)) ∧
    (32 ≤ 32 ∧ pcStatus (exec (.beq 32 31 0) edge) = some (0, raised .registerIndexOutOfBounds) ∧
      pcStatus (exec (.beq 31 32 0) edge) = some (0, raised .registerIndexOutOfBounds)) := by decide

theorem witness_BneJumpsIfNotEqual :
    (31 < 32 ∧ 4095 < 4096 ∧ pcStatus (exec (.bne 31 0 4095) edge) = some (1, .running) ∧
      pcStatus (exec (.bne 2 31 4095) edge) = some (4095, .running) ∧
      pcStatus (exec (.bne 31 2 4095) edge) = some (4095, .running)) ∧
    (32 ≤ 32 ∧ pcStatus (exec (.bne 32 31 0) edge) = some (0, raised .registerIndexOutOfBounds) ∧
      pcStatus (exec (.bne 31 32 0) edge) = some (0, raised .registerIndexOutOfBounds)) := by decide

theorem witness_BltJumpsIfLess :
    (31 < 32 ∧ 4095 < 4096 ∧ pcStatus (exec (.blt 31 0 4095) edge) = some (1, .running) ∧
      pcStatus (exec (.blt 2 31 4095) edge) = some (4095, .running) ∧
      pcStatus (exec (.blt 31 2 4095) edge) = some (1, .running)) ∧
    (32 ≤ 32 ∧ pcStatus (exec (.blt 32 31 0) edge) = some (0, raised .registerIndexOutOfBounds) ∧
      pcStatus (exec (.blt 31 32 0) edge) = some (0, raised .registerIndexOutOfBounds)) := by decide

theorem witness_BgtJumpsIfGreater :
    (31 < 32 ∧ 4095 < 4096 ∧ pcStatus (exec (.bgt 31 0 4095) edge) = some (1, .running) ∧
      pcStatus (exec (.bgt 2 31 4095) edge) = some (1, .running) ∧
      pcStatus (exec (.bgt 31 2 4095) edge) = some (4095, .running)) ∧
    (32 ≤ 32 ∧ pcStatus (exec (.bgt 32 31 0) edge) = some (0, raised .registerIndexOutOfBounds) ∧
      pcStatus (exec (.bgt 31 32 0) edge) = some (0, raised .registerIndexOutOfBounds)) := by decide

theorem witness_LwLoadsBigEndianWord :
    (31 < 32 ∧ edge.mem.wf = true ∧ edge.regs[2].toNat + 0 ≤ 28 ∧ regPc 31 (exec (.lw 31 2 0) edge) = some (0x10111213, 1, .running)) ∧
    (edge.regs[1].toNat + 0 ≤ 28 ∧ regPc 31 (exec (.lw 31 1 0) edge) = some (0x2C2D2E2F, 1, .running)) ∧
    (29 ≤ edge.regs[1].toNat + 1 ∧ pcStatus (exec (.lw 31 1 1) edge) = some (0, raised .memoryWordOverrun)) ∧
    (edge.regs[1].toNat + 3 ≤ 31 ∧ pcStatus (exec (.lw 31 1 3) edge) = some (0, raised .memoryWordOverrun)) ∧
    (32 ≤ edge.regs[1].toNat + 4 ∧ pcStatus (exec (.lw 31 1 4) edge) = some (0, raised .memoryAddressOutOfBounds)) ∧
    (32 ≤ edge.regs[31].toNat + 1 ∧ pcStatus (exec (.lw 31 31 1) edge) = some (0, raised .memoryAddressOutOfBounds)) ∧
    (32 ≤ 32 ∧ pcStatus (exec (.lw 32 31 0) edge) = some (0, raised .registerIndexOutOfBounds) ∧
      pcStatus (exec (.lw 31 32 0) edge) = some (0, raised .registerIndexOutOfBounds)) := by decide

theorem witness_SwStoresBigEndianWord :
    (31 < 32 ∧ edge.mem.wf = true ∧ edge.regs[2].toNat + 0 ≤ 28 ∧ look (fun t => t.mem.readWord 0) (exec (.sw 31 2 0) edge) = some 0xFFFFFFFF) ∧
    (edge.regs[1].toNat + 0 ≤ 28 ∧ look (fun t => t.mem.readWord 28) (exec (.sw 31 1 0) edge) = some 0xFFFFFFFF) ∧
    (29 ≤ edge.regs[1].toNat + 1 ∧ pcStatus (exec (.sw 31 1 1) edge) = some (0, raised .memoryWordOverrun)) ∧
    (edge.regs[1].toNat + 3 ≤ 31 ∧ pcStatus (exec (.sw 31 1 3) edge) = some (0, raised .memoryWordOverrun)) ∧
    (32 ≤ edge.regs[1].toNat + 4 ∧ pcStatus (exec (.sw 31 1 4) edge) = some (0, raised .memoryAddressOutOfBounds)) ∧
    (32 ≤ edge.regs[31].toNat + 1 ∧ pcStatus (exec (.sw 31 31 1) edge) = some (0, raised .memoryAddressOutOfBounds)) ∧
    (32 ≤ 32 ∧ pcStatus (exec (.sw 32 31 0) edge) = some (0, raised .registerIndexOutOfBounds) ∧
      pcStatus (exec (.sw 31 32 0) edge) = some (0, raised .registerIndexOutOfBounds)) := by decide

theorem witness_UnrecognizedOpcodesFault :
    63 < 64 ∧ 4095 < 4096 ∧ 7 < 8 ∧
    decode "000111111111111111111111111111000".toList = .ok (.illegalOp0 63 63 4095 7) ∧
    decode "110111111111111111111111111000000".toList = .ok (.illegalOp6 63 63 4095) ∧
    decode "111111111111111111111111111000000".toList = .ok (.illegalOp7 63 63 4095) := by decide

theorem witness_AluFunctionZeroFaults :
    (decode "001111111111111111111000000000000".toList = .ok (.illegalOp1Fn0 63 63 63) ∧
      decode "010111111111111111111111111000000".toList = .ok (.illegalOp2Fn0 63 63 4095)) ∧
    (31 < 32 ∧ pcStatus (exec (.illegalOp1Fn0 31 31 31) edge) = some (0, raised .unrecognizedFunction) ∧
      pcStatus (exec (.illegalOp2Fn0 31 31 4095) edge) = some (0, raised .unrecognizedFunction)) ∧
    (32 ≤ 32 ∧ pcStatus (exec (.illegalOp1Fn0 31 31 32) edge) = some (0, raised .registerIndexOutOfBounds) ∧
      pcStatus (exec (.illegalOp2Fn0 31 32 0) edge) = some (0, raised .registerIndexOutOfBounds)) := by decide

theorem witness_BranchFunctionsOutsideRangeFault :
    (decode "011111111111111111111111111000000".toList = .ok (.illegalOp3Fn0 63 63 4095) ∧
      decode "011111111111111111111111111101000".toList = .ok (.illegalOp3Fn5 63 63 4095) ∧
      decode "011111111111111111111111111110000".toList = .ok (.illegalOp3Fn6Fn7 63 63 4095 6) ∧
      decode "011111111111111111111111111111000".toList = .ok (.illegalOp3Fn6Fn7 63 63 4095 7)) ∧
    (∀ i ∈ [Instr.illegalOp3Fn0 31 31 0, .illegalOp3Fn5 31 31 0, .illegalOp3Fn6Fn7 31 31 0 7],
      pcStatus (exec i edge) = some (0, raised .unrecognizedFunction)) ∧
    (∀ i ∈ [Instr.illegalOp3Fn0 32 31 0, .illegalOp3Fn5 31 32 0, .illegalOp3Fn6Fn7 32 32 0 6],
      pcStatus (exec i edge) = some (0, raised .registerIndexOutOfBounds)) := by decide

theorem witness_EncodeDecodeRoundTrip :
    ∀ i ∈ [Instr.add 63 63 63, .xori 63 63 4095, .bgt 0 0 0, .lw 63 63 4095, .illegalOp0 63 63 4095 7,
      .illegalOp3Fn6Fn7 0 0 0 6], i.wf = true ∧ decode (encode i) = .ok i := by decide

/-- 21 characters: the shortest line of op_code 1; its `function` overlaps its `arg3`. -/
theorem witness_DecodedFieldsAreInRange :
    decode "001111111111111111111".toList = .ok (.xor 63 63 63) := by decide

/-- Each kind of unreadable field in turn. -/
theorem witness_DecodeErrorExactlyOnUnreadableFields :
    ∀ l ∈ [[], "01".toList, "0x1".toList, "0110000000000".toList, "0110000000000y0".toList, "00100000000000000000".toList,
      "00100000000000000000z".toList, "01000000000000000000000000".toList, badLine, "010000001000000000000000101021000".toList],
      decode l = .error (.malformedLine l) := by decide

theorem witness_CanonicalFieldsAreBitSlices :
    0 < 2 ^ 33 ∧ 2 ^ 33 - 1 < 2 ^ 33 ∧ decodeFields (lineOfWord 0) = some ⟨0, 0, 0, 0, 0⟩ ∧
    decodeFields (lineOfWord (2 ^ 33 - 1)) = some ⟨7, 63, 63, 4095, 0⟩ := by decide

theorem witness_OpcodeTableSelectsDecodedRow :
    2 ^ 33 - 1 < 2 ^ 33 ∧ (Instr.illegalOp7 63 63 4095).rowMatches (2 ^ 33 - 1) = true ∧
    (Instr.illegalOp0 0 0 0 0).rowMatches 0 = true ∧ (Instr.add 0 0 0).rowMatches 0 = false := by decide

theorem witness_FieldIsPositionalNumeral :
    0 < 3 ∧ 3 ≤ "110x".toList.length ∧
    (∀ p < 3, "110x".toList[p]? = some '0' ∨ "110x".toList[p]? = some '1') ∧ field "110x".toList 0 3 = some 6 := by decide

theorem witness_IgnoredCharactersAreNotRead :
    decodeFields "010000001000000000000000101001000".toList = decodeFields "010000001000000000000000101001xyz".toList ∧
    decodeFields "001000011000001000010000000001000".toList = decodeFields "001000011000001000010uvwxyz001000".toList ∧
    decodeFields "100000010000001000000000101000000".toList = decodeFields "100000010000001000000000101uvwxyz".toList := by decide

theorem witness_StepRunsDecodedInstruction :
    (loop.status = .running ∧ loop.program[loop.pc]? = some (encode (.beq 0 0 0)) ∧
      decode (encode (.beq 0 0 0)) = .ok (.beq 0 0 0) ∧ look id (exec (.beq 0 0 0) loop) = some loop) ∧
    ((load [badLine]).status = .running ∧ (load [badLine]).program[(load [badLine]).pc]? = some badLine ∧
      decode badLine = .error (.malformedLine badLine)) := by decide

theorem witness_PcOutOfRangeHalts :
    ({ loop with pc := 1 }.status = .running ∧ { loop with pc := 1 }.program.length ≤ { loop with pc := 1 }.pc ∧
      pcStatus (step { loop with pc := 1 }) = some (1, .halted)) ∧
    (loop.status = .running ∧ loop.pc < loop.program.length ∧ pcStatus (step loop) = some (0, .running)) := by decide

theorem witness_EmptyProgramHaltsAtOnce :
    edge.program = [] ∧ edge.pc = 0 ∧ edge.status = .running ∧ look id (step edge) = some { edge with status := .halted } := by decide

theorem witness_EndedRunHoldsItsState :
    { edge with status := raised .divisionByZero }.status ≠ .running ∧
    look id (step { edge with status := raised .divisionByZero }) = some { edge with status := raised .divisionByZero } := by decide

theorem witness_CycleIsAtomic :
    pcStatus (step loop) = some (0, .running) ∧
    pcStatus (step (load [badLine])) = some (0, .faulted (.decodeError badLine)) ∧
    pcStatus (step { loop with pc := 1 }) = some (1, .halted) := by decide

theorem witness_FaultEntryKeepsStateAndReportsOnce :
    ∃ t, step (load [blankLine]) = .next t ∧ (load [blankLine]).status = .running ∧ t.status = raised .unrecognizedOpcode := ⟨_, rfl, by decide, by decide⟩

theorem witness_StatusFollowsCheckPriority :
    (loop.status = .running ∧ loop.program[loop.pc]? = some (encode (.beq 0 0 0)) ∧
      decodeFields (encode (.beq 0 0 0)) = some ⟨3, 0, 0, 0, 1⟩ ∧ statusByPriority ⟨3, 0, 0, 0, 1⟩ loop = .running) ∧
    ((load [badLine]).program[(load [badLine]).pc]? = some badLine ∧ decodeFields badLine = none) ∧
    State.reset.program[State.reset.pc]? = none := by decide

theorem witness_InvariantKeptByEveryStep :
    loop.Inv ∧ ∃ t, step loop = .next t ∧ t ≠ loop := by
  refine ⟨⟨by decide, by unfold State.PcBounded; decide, trivial, rfl, ?_⟩, _, rfl, by decide⟩
  intro r h
  exact absurd h (by simp [loop, load, State.reset, traceRecords])

/-- The invariant holds of a faulted state too: the one that executing the line of all zeros leaves. -/
theorem witness_InvariantKeptByEveryStep_faulted :
    (takeFault (.executionError .unrecognizedOpcode) (load [blankLine])).Inv := by
  refine ⟨by decide, by unfold State.PcBounded; decide, ?_, rfl, ?_⟩
  · exact ⟨blankLine, .illegalOp0 0 0 0 0, by decide, by decide, rfl⟩
  · intro r h
    exact absurd h (by simp [takeFault, load, State.reset, traceRecords])

theorem witness_HardwareFormKeptByEveryStep :
    loop.HardwareForm ∧ loop.status = .running ∧ ∃ t, step loop = .next t ∧ t ≠ loop := ⟨⟨by decide, by decide, by decide⟩, by decide, _, rfl, by decide⟩

theorem witness_CompletedCycleEmitsItsTraceRecord :
    (∃ t, step loop = .next t ∧ loop.status = .running ∧ t.status = .running ∧ (traceRecords t.out).length = 1) ∧
    ∃ t, step (load [blankLine]) = .next t ∧ t.status ≠ .running ∧ traceRecords t.out = [] := ⟨⟨_, rfl, by decide, by decide, by decide⟩, _, rfl, by decide, by decide⟩

theorem witness_RunEmitsOneRecordPerCycle :
    ∃ t, Host.Core.run core 3 loop = .next t ∧ t.status = .running ∧ (traceRecords t.out).length = 3 := ⟨_, rfl, by decide, by decide⟩

theorem witness_ProgramStoreNeverChanges :
    (∃ t, exec (.sw 31 2 0) edge = .next t ∧ t ≠ edge) ∧ ∃ t, step loop = .next t ∧ t.program = loop.program := ⟨⟨_, rfl, by decide⟩, _, rfl, by decide⟩

theorem witness_MemoryReadOnlyByLoadWrittenOnlyByStore :
    edge.mem.wf = true ∧
    (∃ t, exec (.add 31 31 31) edge = .next t ∧ (Instr.add 31 31 31).fields.opCode ≠ 5) ∧
    (∃ u, exec (.add 31 31 31) { edge with mem := [] } = .next u ∧ (Instr.add 31 31 31).fields.opCode ≠ 4) ∧
    (∃ t, exec (.sw 31 2 0) edge = .next t ∧ t.mem ≠ edge.mem) ∧
    look (fun t => t.regAt 31) (exec (.lw 31 2 0) edge) ≠ look (fun t => t.regAt 31) (exec (.lw 31 2 0) { edge with mem := [] }) := ⟨by decide, ⟨_, rfl, by decide⟩, ⟨_, rfl, by decide⟩, ⟨_, rfl, by decide⟩, by decide⟩

theorem witness_PcUpdateOfEveryInstruction :
    edge.status = .running ∧ pcStatus (exec (.add 31 31 31) edge) = some (1, .running) ∧
    (BranchTaken 1 (edge.regAt 31) (edge.regAt 0) ∧ pcStatus (exec (.beq 31 0 4095) edge) = some (4095, .running)) ∧
    (¬BranchTaken 1 (edge.regAt 31) (edge.regAt 2) ∧ pcStatus (exec (.beq 31 2 4095) edge) = some (1, .running)) ∧
    pcStatus (exec (.divi 31 31 0) edge) = some (0, raised .divisionByZero) ∧
    pcStatus (exec (.add 31 31 31) { edge with pc := 4096 }) = some (4097, .running) ∧
    pcStatus (step (load [badLine])) = some (0, .faulted (.decodeError badLine)) := by
  unfold BranchTaken
  decide

theorem witness_ExecutorReadsNoOutputStatusOrProgram :
    (∃ t, exec (.add 31 31 31) edge = .next t ∧ t.status = edge.status) ∧
    ∃ u, exec (.add 31 31 31) { edge with out := [], status := .halted, program := [badLine] } = .next u ∧
      u.status = .halted := ⟨⟨_, rfl, by decide⟩, _, rfl, by decide⟩

theorem witness_RegisterWritersFrame :
    (∃ t, exec (.add 31 31 31) edge = .next t ∧ t.regs ≠ edge.regs) ∧ ∃ t, exec (.lw 31 1 1) edge = .next t ∧ t.regs = edge.regs := ⟨⟨_, rfl, by decide⟩, _, rfl, by decide⟩

theorem witness_BranchFrame :
    (∃ t, exec (.bne 31 2 4095) edge = .next t ∧ t.pc = 4095) ∧ ∃ t, exec (.bne 32 2 4095) edge = .next t ∧ t.pc = 0 := ⟨⟨_, rfl, by decide⟩, _, rfl, by decide⟩

theorem witness_StoreFrame :
    (∃ t, exec (.sw 31 1 0) edge = .next t ∧ t.mem.read 27 = edge.mem.read 27 ∧ t.mem.read 28 ≠ edge.mem.read 28) ∧
    ∃ t, exec (.sw 31 1 1) edge = .next t ∧ t.mem = edge.mem := ⟨⟨_, rfl, by decide, by decide⟩, _, rfl, by decide⟩

theorem witness_IllegalRowsFrame :
    ∀ i ∈ [Instr.illegalOp0 0 0 0 0, .illegalOp6 63 63 4095, .illegalOp7 0 0 0, .illegalOp1Fn0 31 31 31, .illegalOp2Fn0 31 31 0,
      .illegalOp3Fn0 31 31 0, .illegalOp3Fn5 32 0 0, .illegalOp3Fn6Fn7 31 31 0 7],
      look (fun t => (t.regs, t.mem, t.pc)) (exec i edge) = some (edge.regs, edge.mem, edge.pc) := by decide

theorem witness_MemWriteThenRead :
    edge.mem.wf = true ∧ 28 ≤ 28 ∧ (edge.mem.writeWord 28 0xCAFEF00D).readWord 28 = 0xCAFEF00D ∧
    (edge.mem.writeWord 28 0xCAFEF00D).read 27 = 0x2B ∧ (edge.mem.writeWord 0 0).wf = true := by decide

theorem witness_LoadAfterStoreGivesTheStoredValue :
    ∃ t, edge.mem.wf = true ∧ edge.regs[1].toNat + 0 ≤ 28 ∧ exec (.sw 31 1 0) edge = .next t ∧
    t.regs[2].toNat + 28 = edge.regs[1].toNat + 0 ∧ look (fun w => w.regAt 5) (exec (.lw 5 2 28) t) = some 0xFFFFFFFF := ⟨_, by decide, by decide, rfl, by decide, by decide⟩

theorem witness_EqualMemoriesAreEqualData :
    (Memory.write (Memory.write [] 31 5) 0 7).wf = true ∧ (Memory.write (Memory.write [] 0 7) 31 5).wf = true ∧
    ∀ a < 32, (Memory.write (Memory.write [] 31 5) 0 7).read a = (Memory.write (Memory.write [] 0 7) 31 5).read a := by decide

theorem witness_HostStartsARun :
    4096 < (List.replicate 4097 (0#33)).length ∧ (List.replicate 4096 (0#33)).length ≤ 4096 := by
  simp only [List.length_replicate]
  decide

end Sys2Proof.Tests
end

section
/-! PROOFS. The register-register ALU instructions (41_alu_reg): what each operation answers, what the operand form makes of
it, and from these the statements about ADD, SUB, MUL, AND, OR and XOR. -/

namespace Sys2Proof

/-- A canonical line of `op_code` 1 decodes to the instruction its `function` selects, with the written register fields. -/
theorem decode_formatR {a b c f : Nat} (ha : a < 32) (hb : b < 32) (hc : c < 32) (hf : f < 8) :
    decode (bits 3 1 ++ bits 6 a ++ bits 6 b ++ bits 6 c ++ bits 6 0 ++ bits 3 f ++ bits 3 0) =
      .ok (Decoded.mk 1 a b c f).toInstr :=
  decode_eq_ok.mpr ⟨_, decodeFields_formatR (by omega) (by omega) (by omega) hf, rfl⟩

namespace Machine

/-! ## What each operation answers -/

theorem opAdd_spec (x y : Word) : ∃ v : Word, v.toNat = (x.toNat + y.toNat) % 2 ^ 32 ∧ opAdd x y = .ok v := by
  refine ⟨_, ?_, rfl⟩
  exact_mod_cast toNat_mask32 (x.toNat + y.toNat)

theorem opSub_spec (x y : Word) :
    ∃ v : Word, (v.toNat : Int) = ((x.toNat : Int) - y.toNat) % 2 ^ 32 ∧ opSub x y = .ok v :=
  ⟨_, toNat_mask32 _, rfl⟩

theorem opMul_spec (x y : Word) : ∃ v : Word, v.toNat = x.toNat * y.toNat % 2 ^ 32 ∧ opMul x y = .ok v := by
  refine ⟨_, ?_, rfl⟩
  exact_mod_cast toNat_mask32 (x.toNat * y.toNat)

theorem opAnd_spec (x y : Word) :
    ∃ v : Word, (∀ k < 32, v.getLsbD k = (x.getLsbD k && y.getLsbD k)) ∧ opAnd x y = .ok v :=
  ⟨_, fun _ _ => BitVec.getLsbD_and, rfl⟩

theorem opOr_spec (x y : Word) :
    ∃ v : Word, (∀ k < 32, v.getLsbD k = (x.getLsbD k || y.getLsbD k)) ∧ opOr x y = .ok v :=
  ⟨_, fun _ _ => BitVec.getLsbD_or, rfl⟩

theorem opXor_spec (x y : Word) :
    ∃ v : Word, (∀ k < 32, v.getLsbD k = (x.getLsbD k ^^ y.getLsbD k)) ∧ opXor x y = .ok v :=
  ⟨_, fun _ _ => BitVec.getLsbD_xor, rfl⟩

/-! ## What `ExecR` makes of an operation's answer -/

section
variable {a b c : Nat} {s : State}

/-- With its three registers, `ExecR` writes the value the operation answers, whatever property `P` describes it, and
advances. -/
theorem execR_writes {op : Word → Word → Except Cause Word} {P : Word → Prop} (ha : a < 32) (hb : b < 32) (hc : c < 32)
    (h : ∃ v, P v ∧ op s.regs[b] s.regs[c] = .ok v) :
    ∃ v, P v ∧ execR op a b c s = .next { s with regs := s.regs.set a v ha, pc := s.pc + 1 } := by
  obtain ⟨v, hv, hop⟩ := h
  refine ⟨v, hv, ?_⟩
  rw [execR_of_lt op ha hb hc, State.reg_mk, State.reg_mk, hop]
  rfl

/-- A register field of 32 or more makes `ExecR` take the register fault, whatever the operation. -/
theorem execR_faults {op : Word → Word → Except Cause Word} (h : 32 ≤ a ∨ 32 ≤ b ∨ 32 ≤ c) :
    execR op a b c s = .next (takeFault (.executionError .registerIndexOutOfBounds) s) :=
  execR_of_not op (by omega)

theorem exec_add : exec (.add a b c) s = execR opAdd a b c s := rfl
theorem exec_sub : exec (.sub a b c) s = execR opSub a b c s := rfl
theorem exec_mul : exec (.mul a b c) s = execR opMul a b c s := rfl
theorem exec_and : exec (.and a b c) s = execR opAnd a b c s := rfl
theorem exec_or : exec (.or a b c) s = execR opOr a b c s := rfl
theorem exec_xor : exec (.xor a b c) s = execR opXor a b c s := rfl

end

/-! ## The statements -/

/-- Settles O1: the canonical line decodes by its format, `ExecR` writes the masked sum, and a bad register field faults. -/
theorem addWritesSum : Obligations.AddWritesSum := by
  intro a b c s
  simp only [exec_add]
  exact ⟨fun ha hb hc => ⟨decode_formatR ha hb hc (by decide), execR_writes ha hb hc (opAdd_spec _ _)⟩, execR_faults⟩

/-- Settles O2: as for ADD, with the difference in the order of the operands. -/
theorem subWritesDifference : Obligations.SubWritesDifference := by
  intro a b c s
  simp only [exec_sub]
  exact ⟨fun ha hb hc => ⟨decode_formatR ha hb hc (by decide), execR_writes ha hb hc (opSub_spec _ _)⟩, execR_faults⟩

/-- Settles O3: as for ADD, with the low 32 bits of the product. -/
theorem mulWritesProduct : Obligations.MulWritesProduct := by
  intro a b c s
  simp only [exec_mul]
  exact ⟨fun ha hb hc => ⟨decode_formatR ha hb hc (by decide), execR_writes ha hb hc (opMul_spec _ _)⟩, execR_faults⟩

/-- Settles O5: as for ADD, with the conjunction of the operands' bits. -/
theorem andWritesAnd : Obligations.AndWritesAnd := by
  intro a b c s
  simp only [exec_and]
  exact ⟨fun ha hb hc => ⟨decode_formatR ha hb hc (by decide), execR_writes ha hb hc (opAnd_spec _ _)⟩, execR_faults⟩

/-- Settles O6: as for ADD, with the disjunction of the operands' bits. -/
theorem orWritesOr : Obligations.OrWritesOr := by
  intro a b c s
  simp only [exec_or]
  exact ⟨fun ha hb hc => ⟨decode_formatR ha hb hc (by decide), execR_writes ha hb hc (opOr_spec _ _)⟩, execR_faults⟩

/-- Settles O7: as for ADD, with the exclusive or of the operands' bits. -/
theorem xorWritesXor : Obligations.XorWritesXor := by
  intro a b c s
  simp only [exec_xor]
  exact ⟨fun ha hb hc => ⟨decode_formatR ha hb hc (by decide), execR_writes ha hb hc (opXor_spec _ _)⟩, execR_faults⟩

end Machine
end Sys2Proof
end

section
/-! PROOFS. The register-immediate ALU instructions (42_alu_imm): what the operand form makes of an operation's answer, the
shape that the statements share, and from these the statements about ADDI, SUBI, MULI, ANDI, ORI and XORI. The operations are
those of 41_alu_reg, so their `_spec` lemmas serve here too. -/

namespace Sys2Proof

/-- A canonical line of `op_code` 0, 2 or 3 decodes to the instruction its `op_code` and `function` select, with the written
fields. -/
theorem decode_formatIB {o a b c f : Nat} (ho : o < 4) (ho1 : o ≠ 1) (ha : a < 64) (hb : b < 64) (hc : c < 4096)
    (hf : f < 8) :
    decode (bits 3 o ++ bits 6 a ++ bits 6 b ++ bits 12 c ++ bits 3 f ++ bits 3 0) = .ok (Decoded.mk o a b c f).toInstr :=
  decode_eq_ok.mpr ⟨_, decodeFields_formatIB ho ho1 ha hb hc hf, rfl⟩

namespace Machine

section
variable {a b c : Nat} {s : State}

/-! ## What `ExecI` makes of an operation's answer -/

/-- With its two registers, `ExecI` writes the value the operation answers on the zero-extended immediate, whatever property
`P` describes it, and advances. -/
theorem execI_writes {op : Word → Word → Except Cause Word} {P : Word → Prop} (ha : a < 32) (hb : b < 32)
    (h : ∃ v, P v ∧ op s.regs[b] (zext32 c) = .ok v) :
    ∃ v, P v ∧ execI op a b c s = .next { s with regs := s.regs.set a v ha, pc := s.pc + 1 } := by
  obtain ⟨v, hv, hop⟩ := h
  refine ⟨v, hv, ?_⟩
  rw [execI_of_lt op ha hb, State.reg_mk, hop]
  rfl

/-- A register field of 32 or more makes `ExecI` take the register fault, whatever the operation. -/
theorem execI_faults {op : Word → Word → Except Cause Word} (h : 32 ≤ a ∨ 32 ≤ b) :
    execI op a b c s = .next (takeFault (.executionError .registerIndexOutOfBounds) s) :=
  execI_of_not op (by omega)

/-! ## The shape the statements share -/

/-- An instruction `i` of `op_code` 2 whose meaning is `ExecI` of `op`: its canonical line decodes to it; it writes the value
that `op` answers, described by `P`, on the register and on the word `y` that holds the immediate; a bad register field
faults. -/
theorem aluImm_decodes_and_writes_or_faults {op : Word → Word → Except Cause Word} {i : Instr} {f : Nat}
    {P : b < 32 → Word → Prop} (hf : f < 8) (hdec : (Decoded.mk 2 a b c f).toInstr = i)
    (hexec : exec i s = execI op a b c s)
    (hop : ∀ (hb : b < 32) (y : Word), y.toNat = c → ∃ v, P hb v ∧ op s.regs[b] y = .ok v) :
    (∀ (ha : a < 32) (hb : b < 32), c < 4096 →
      decode (bits 3 2 ++ bits 6 a ++ bits 6 b ++ bits 12 c ++ bits 3 f ++ bits 3 0) = .ok i ∧
      ∃ v, P hb v ∧ exec i s = .next { s with regs := s.regs.set a v ha, pc := s.pc + 1 }) ∧
    (32 ≤ a ∨ 32 ≤ b → exec i s = .next (takeFault (.executionError .registerIndexOutOfBounds) s)) := by
  rw [hexec, ← hdec]
  refine ⟨fun ha hb hc => ⟨decode_formatIB (by decide) (by decide) (by omega) (by omega) hc hf, ?_⟩, execI_faults⟩
  exact execI_writes ha hb (hop hb _ (toNat_zext32 (by omega)))

end

/-! ## The statements -/

/-- Settles O8: the sum that ADD forms, with the immediate as second operand. -/
theorem addiWritesSum : Obligations.AddiWritesSum := by
  intro a b c s
  exact aluImm_decodes_and_writes_or_faults (by decide) rfl rfl fun _ y hy => hy ▸ opAdd_spec _ y

/-- Settles O9: the difference that SUB forms, with the immediate as second operand. -/
theorem subiWritesDifference : Obligations.SubiWritesDifference := by
  intro a b c s
  exact aluImm_decodes_and_writes_or_faults (by decide) rfl rfl fun _ y hy => hy ▸ opSub_spec _ y

/-- Settles O10: the low 32 bits of the product that MUL forms, with the immediate as second operand. -/
theorem muliWritesProduct : Obligations.MuliWritesProduct := by
  intro a b c s
  exact aluImm_decodes_and_writes_or_faults (by decide) rfl rfl fun _ y hy => hy ▸ opMul_spec _ y

/-- Settles O12: the conjunction that AND forms; bit `k` of the immediate's word is bit `k` of the number. -/
theorem andiWritesAnd : Obligations.AndiWritesAnd := by
  intro a b c s
  exact aluImm_decodes_and_writes_or_faults (by decide) rfl rfl fun _ y hy => hy ▸ opAnd_spec _ y

/-- Settles O13: the disjunction that OR forms, bits as for ANDI. -/
theorem oriWritesOr : Obligations.OriWritesOr := by
  intro a b c s
  exact aluImm_decodes_and_writes_or_faults (by decide) rfl rfl fun _ y hy => hy ▸ opOr_spec _ y

/-- Settles O14: the exclusive or that XOR forms, bits as for ANDI. -/
theorem xoriWritesXor : Obligations.XoriWritesXor := by
  intro a b c s
  exact aluImm_decodes_and_writes_or_faults (by decide) rfl rfl fun _ y hy => hy ▸ opXor_spec _ y

end Machine
end Sys2Proof
end

section
/-! PROOFS. The conditional branches (43_branch): when each comparison holds, what the operand form makes of it, the shape
that the statements share, and from these the statements about BEQ and BNE. -/

namespace Sys2Proof
namespace Machine

/-! ## When each comparison holds -/

theorem condEq_iff (x y : Word) : condEq x y = true ↔ x.toNat = y.toNat := decide_eq_true_iff

theorem condNe_iff (x y : Word) : condNe x y = true ↔ x.toNat ≠ y.toNat := decide_eq_true_iff

section
variable {a b c : Nat} {s : State}

/-! ## What `ExecB` makes of a comparison -/

/-- With its two registers, `ExecB` replaces only the pc, by the target exactly where the comparison, described by `P`,
holds. -/
theorem execB_jumps {cond : Word → Word → Bool} {P : Prop} [Decidable P] (ha : a < 32) (hb : b < 32)
    (h : cond s.regs[a] s.regs[b] = true ↔ P) :
    execB cond a b c s = .next { s with pc := if P then c else s.pc + 1 } := by
  rw [execB_of_lt cond ha hb, State.reg_mk, State.reg_mk]
  by_cases hP : P
  · rw [if_pos (h.mpr hP), if_pos hP]
    rfl
  · rw [if_neg (mt h.mp hP), if_neg hP]
    rfl

/-- A register field of 32 or more makes `ExecB` take the register fault, whatever the comparison. -/
theorem execB_faults {cond : Word → Word → Bool} (h : 32 ≤ a ∨ 32 ≤ b) :
    execB cond a b c s = .next (takeFault (.executionError .registerIndexOutOfBounds) s) :=
  execB_of_not cond (by omega)

/-! ## The shape the statements share -/

/-- An instruction `i` of `op_code` 3 whose meaning is `ExecB` of `cond`: its canonical line decodes to it; it jumps to its
target where `cond` holds of the two registers, described by `P`, and advances where not; a bad register field faults. -/
theorem branch_decodes_and_jumps_or_faults {cond : Word → Word → Bool} {i : Instr} {f : Nat} {P : a < 32 → b < 32 → Prop}
    [∀ ha hb, Decidable (P ha hb)] (hf : f < 8) (hdec : (Decoded.mk 3 a b c f).toInstr = i)
    (hexec : exec i s = execB cond a b c s)
    (hcond : ∀ (ha : a < 32) (hb : b < 32), cond s.regs[a] s.regs[b] = true ↔ P ha hb) :
    (∀ (ha : a < 32) (hb : b < 32), c < 4096 →
      decode (bits 3 3 ++ bits 6 a ++ bits 6 b ++ bits 12 c ++ bits 3 f ++ bits 3 0) = .ok i ∧
      exec i s = .next { s with pc := if P ha hb then c else s.pc + 1 }) ∧
    (32 ≤ a ∨ 32 ≤ b → exec i s = .next (takeFault (.executionError .registerIndexOutOfBounds) s)) := by
  rw [hexec, ← hdec]
  refine ⟨fun ha hb hc => ⟨decode_formatIB (by decide) (by decide) (by omega) (by omega) hc hf, ?_⟩, execB_faults⟩
  exact execB_jumps ha hb (hcond ha hb)

end

/-! ## The statements -/

/-- Settles O15: `ExecB` of the comparison for equality. -/
theorem beqJumpsIfEqual : Obligations.BeqJumpsIfEqual := by
  intro a b c s
  exact branch_decodes_and_jumps_or_faults (by decide) rfl rfl fun _ _ => condEq_iff _ _

/-- Settles O16: `ExecB` of the comparison for inequality. -/
theorem bneJumpsIfNotEqual : Obligations.BneJumpsIfNotEqual := by
  intro a b c s
  exact branch_decodes_and_jumps_or_faults (by decide) rfl rfl fun _ _ => condNe_iff _ _

end Machine
end Sys2Proof
end

section
/-! PROOFS. The bounds check before the fetch (45_fetch_step R213): what a cycle does on each side of `N`, from the inversion
of the step, and from these the statements about the normal halt and the empty program. -/

namespace Sys2Proof
namespace Machine

section
variable {s t : State}

/-! ## A running cycle on each side of the program length -/

/-- Every other outcome of a running cycle has fetched a line, so it has the pc below `N`. -/
theorem step_of_length_le_pc (h : s.status = .running) (hpc : s.program.length ≤ s.pc) : step s = .next (halt s) := by
  obtain ⟨t, ht, c⟩ := step_cycle s
  cases c with
  | held hn => exact absurd h hn
  | halted => exact ht
  | malformed _ _ hf | raised _ _ hf | completed _ _ hf => exact absurd (lt_length_of_fetched hf) hpc.not_gt

/-- Below `N` the cycle faults or stays `Running`. -/
theorem Cycle.status_ne_halted (c : Cycle s t) (h : s.status = .running) (hpc : s.pc < s.program.length) :
    t.status ≠ .halted := by
  cases c with
  | held hn => exact absurd h hn
  | halted _ hle => exact absurd hpc hle.not_gt
  | malformed | raised => simp
  | completed _ _ _ _ _ _ _ hu => simp [hu]

end

/-! ## The statements -/

/-- Settles O33: the halt is the only outcome of a running cycle at or beyond `N`, and none below it. -/
theorem pcOutOfRangeHalts : Obligations.PcOutOfRangeHalts := by
  intro s h
  refine ⟨step_of_length_le_pc h, fun hpc => ?_⟩
  obtain ⟨t, ht, c⟩ := step_cycle s
  exact ⟨t, ht, c.status_ne_halted h hpc⟩

/-- Settles O34: the case `N = 0` of the halt, which leaves the outputs as they were. -/
theorem emptyProgramHaltsAtOnce : Obligations.EmptyProgramHaltsAtOnce := by
  have halts (s : State) (hp : s.program = []) (h : s.status = .running) : step s = .next (halt s) :=
    step_of_length_le_pc h (by simp [hp])
  exact ⟨fun s hp _ h => ⟨halts s hp h, rfl⟩, halts (load []) rfl rfl, rfl⟩

end Machine
end Sys2Proof
end

section
/-! PROOFS. Encoder and Decoder agree (30_encoding, 40_decoder): the opcode map and the fields are inverse to each other, a
canonical line is the bits of its word, and from these the statements about encoding, about the ranges of what is decoded,
and about the bit slices of a 33-bit word. -/

namespace Sys2Proof

/-! ## The opcode map and the fields -/

/-- The opcode map reads back the fields of a well-formed instruction. -/
theorem Instr.toInstr_fields {i : Instr} (h : i.wf = true) : i.fields.toInstr = i := by
  cases i with
  | illegalOp3Fn6Fn7 a b c f => exact Laws.FieldsRoundTrip.illegalOp3Fn6Fn7 a b c f h
  | _ => rfl

/-- An instruction is well formed when its fields are and the opcode map reads it back. -/
theorem Instr.wf_of_toInstr_fields {i : Instr} (h : i.fields.wf = true) (hi : i.fields.toInstr = i) : i.wf = true := by
  cases i with
  | illegalOp3Fn6Fn7 a b c f =>
    have h6 : 6 ≤ f := by
      by_contra h6
      obtain rfl | rfl | rfl | rfl | rfl | rfl : f = 0 ∨ f = 1 ∨ f = 2 ∨ f = 3 ∨ f = 4 ∨ f = 5 := by omega
      all_goals cases hi
    simp [wf, h, h6]
  | _ => simp [wf, h]

/-- The instruction that fields in range select has those fields (40_decoder R116). -/
theorem Decoded.fields_toInstr {d : Decoded} (h : d.wf = true) : d.toInstr.fields = d := by
  obtain ⟨o, a, b, c, f⟩ := d
  obtain ⟨ho, -, -, -, hf, h0⟩ := (Decoded.wf_iff _).mp h
  dsimp only at ho hf h0
  obtain ho | ⟨ho4, rfl⟩ : o < 4 ∨ (4 ≤ o ∧ f = 0) := by omega
  · interval_cases o <;> interval_cases f <;> rfl
  · interval_cases o <;> rfl

theorem Decoded.wf_toInstr {d : Decoded} (h : d.wf = true) : d.toInstr.wf = true := by
  have hd := d.fields_toInstr h
  exact Instr.wf_of_toInstr_fields (hd.symm ▸ h) (congrArg toInstr hd)

/-! ## The fields that are read and written -/

/-- Whatever fields are read are in range (40_decoder R116). -/
theorem wf_of_decodeFields {line : Line} {d : Decoded} (h : decodeFields line = some d) : d.wf = true := by
  obtain ⟨h0, h1, h2, h3, h4⟩ := decodeFields_eq_some.mp h
  obtain ⟨-, -, -, ho⟩ := field_lt h0
  obtain ⟨-, -, -, ha⟩ := field_lt h1
  obtain ⟨-, -, -, hb⟩ := field_lt h2
  have hc : d.arg3 < if d.opCode = 1 then 64 else 4096 := by
    split_ifs at h3 ⊢
    all_goals exact (field_lt h3).2.2.2
  have hf : d.function < 8 ∧ (d.opCode < 4 ∨ d.function = 0) := by
    split at h4
    · next ho =>
      have hlt := (field_lt h4).2.2.2
      rw [show (line.length : Int) - 3 - (line.length - 6) = 3 by ring] at hlt
      exact ⟨hlt, .inl ho⟩
    · have h0 := (Option.some.inj h4).symm
      exact ⟨by omega, .inr h0⟩
  exact d.wf_iff.mpr ⟨ho, ha, hb, hc, hf⟩

/-- The inversion of the Decoder: what it answers is well formed, and its fields are those that were read. -/
theorem decode_ok_fields {line : Line} {i : Instr} (h : decode line = .ok i) :
    i.wf = true ∧ decodeFields line = some i.fields := by
  obtain ⟨d, hd, rfl⟩ := decode_eq_ok.mp h
  have hw := wf_of_decodeFields hd
  exact ⟨d.wf_toInstr hw, by rw [hd, d.fields_toInstr hw]⟩

/-- Written fields are read back, in each of the three formats (30_encoding R84). -/
theorem decodeFields_encode {d : Decoded} (h : d.wf = true) : decodeFields d.encode = some d := by
  obtain ⟨o, a, b, c, f⟩ := d
  obtain ⟨ho, ha, hb, hc, hf, h0⟩ := (Decoded.wf_iff _).mp h
  dsimp only at ho ha hb hc hf h0
  by_cases h1 : o = 1
  · subst h1
    simpa [Decoded.encode] using decodeFields_formatR (g := 0) (x := 0) ha hb hc hf
  · rw [if_neg h1] at hc
    obtain ho4 | ⟨ho4, rfl⟩ : o < 4 ∨ (4 ≤ o ∧ f = 0) := by omega
    · simpa [Decoded.encode, h1] using decodeFields_formatIB (x := 0) ho4 h1 ha hb hc hf
    · have hz : bits 3 0 ++ bits 3 0 = bits 6 0 := rfl
      simpa [Decoded.encode, h1, hz] using decodeFields_formatM (x := 0) ho4 ho ha hb hc

/-- A line is canonical when it is 33 binary characters. -/
theorem canonicalLine_iff {line : Line} :
    canonicalLine line = true ↔ line.length = 33 ∧ ∀ c ∈ line, c = '0' ∨ c = '1' := by
  simp [canonicalLine]

@[simp] theorem all_bits_binary (w n : Nat) : (bits w n).all (fun c => decide (c = '0') || decide (c = '1')) = true := by
  induction w with
  | zero => rfl
  | succ k ih => cases h : n.testBit k <;> simpa [bits, h] using ih

theorem canonicalLine_encode (d : Decoded) : canonicalLine d.encode = true := by
  unfold canonicalLine Decoded.encode
  split <;> simp only [List.all_append, all_bits_binary, List.length_append, bits_length] <;> rfl

/-! ## The bits of a word -/

/-- The bits of a number are those of its upper part and then those of its lower part. -/
theorem bits_add (v w n : Nat) : bits (v + w) n = bits v (n / 2 ^ w) ++ bits w n := by
  induction v with
  | zero => simp [bits]
  | succ k ih => simp only [Nat.succ_add, bits, ih, Nat.testBit_div_two_pow, List.cons_append]

/-- Only the low `w` bits are written. -/
theorem bits_mod (w n : Nat) : bits w (n % 2 ^ w) = bits w n := by
  suffices h : ∀ k ≤ w, bits k (n % 2 ^ w) = bits k n from h w le_rfl
  intro k hk
  induction k with
  | zero => rfl
  | succ k ih => simp [bits, ih (by omega), Nat.testBit_mod_two_pow, show k < w by omega]

/-- The five fields of a 33-bit word as bit slices (30_encoding R84). -/
def wordFields (iw : Nat) : Decoded where
  opCode := iw / 2 ^ 30
  arg1 := iw / 2 ^ 24 % 64
  arg2 := iw / 2 ^ 18 % 64
  arg3 := if iw / 2 ^ 30 = 1 then iw / 2 ^ 12 % 64 else iw / 2 ^ 6 % 4096
  function := if iw / 2 ^ 30 < 4 then iw / 2 ^ 3 % 8 else 0

/-- The line of a word, cut at the positions of format I (30_encoding R84). -/
theorem lineOfWord_eq (iw : Nat) :
    lineOfWord iw = bits 3 (iw / 2 ^ 30) ++ bits 6 (iw / 2 ^ 24 % 64) ++ bits 6 (iw / 2 ^ 18 % 64) ++
      bits 12 (iw / 2 ^ 6 % 4096) ++ bits 6 iw := by
  rw [show 64 = 2 ^ 6 from rfl, show 4096 = 2 ^ 12 from rfl, bits_mod, bits_mod, bits_mod]
  rw [lineOfWord, show Config.ilen = 3 + 6 + 6 + 12 + 6 from rfl, bits_add _ 6, bits_add _ 12, bits_add _ 6, bits_add _ 6]
  simp only [Nat.div_div_eq_div_mul, ← pow_add]

/-- The Decoder reads a 33-bit word at the slices of the layout table. -/
theorem decodeFields_lineOfWord {iw : Nat} (h : iw < 2 ^ 33) : decodeFields (lineOfWord iw) = some (wordFields iw) := by
  have hlow : bits 6 iw = bits 3 (iw / 2 ^ 3 % 8) ++ bits 3 iw := by
    rw [show 8 = 2 ^ 3 from rfl, bits_mod]
    exact bits_add 3 3 iw
  have hmid : bits 12 (iw / 2 ^ 6 % 4096) = bits 6 (iw / 2 ^ 12 % 64) ++ bits 6 (iw / 2 ^ 6) := by
    rw [show 64 = 2 ^ 6 from rfl, show 4096 = 2 ^ 12 from rfl, bits_mod, bits_mod, bits_add 6 6 (iw / 2 ^ 6),
      Nat.div_div_eq_div_mul, ← pow_add]
  rw [lineOfWord_eq]
  unfold wordFields
  by_cases h1 : iw / 2 ^ 30 = 1
  · rw [h1, if_pos rfl, if_pos (by decide), hmid, hlow]
    simp only [← List.append_assoc]
    exact decodeFields_formatR (by omega) (by omega) (by omega) (by omega)
  · rw [if_neg h1]
    by_cases h4 : iw / 2 ^ 30 < 4
    · rw [if_pos h4, hlow, ← List.append_assoc]
      exact decodeFields_formatIB h4 h1 (by omega) (by omega) (by omega) (by omega)
    · rw [if_neg h4]
      exact decodeFields_formatM (by omega) (by omega) (by omega) (by omega) (by omega)

namespace Machine

/-! ## The statements -/

/-- Settles O25: the written fields are read back, and the opcode map gives the instruction they came from. -/
theorem encodeDecodeRoundTrip : Obligations.EncodeDecodeRoundTrip := fun i h =>
  ⟨canonicalLine_encode i.fields,
    decode_eq_ok.mpr ⟨i.fields, decodeFields_encode (Instr.fields_wf h), Instr.toInstr_fields h⟩⟩

/-- Settles O26: the inversion of the Decoder. -/
theorem decodedFieldsAreInRange : Obligations.DecodedFieldsAreInRange := fun _ _ => decode_ok_fields

/-- Settles O28: the line of a word is cut at the positions of the layout table. -/
theorem canonicalFieldsAreBitSlices : Obligations.CanonicalFieldsAreBitSlices := fun iw h =>
  ⟨wordFields iw, decodeFields_lineOfWord h, rfl, rfl, rfl, rfl, rfl⟩

end Machine
end Sys2Proof
end

section
/-! PROOFS. The Decoder on lines of any length and any characters (40_decoder sections 2 and 3): what a field depends on, when
it cannot be read, its value as a positional numeral, and from these the statements about unreadable fields, about the
significance of characters and about the characters that are not read. -/

namespace Sys2Proof

/-! ## When a field cannot be read -/

theorem digit_eq_none {c : Char} : digit c = none ↔ c ≠ '0' ∧ c ≠ '1' := by
  unfold digit
  split_ifs <;> simp_all

theorem binFrom_eq_none {acc : Nat} {line : Line} : binFrom acc line = none ↔ ∃ c ∈ line, c ≠ '0' ∧ c ≠ '1' := by
  induction line generalizing acc with
  | nil => simp [binFrom]
  | cons c cs ih =>
    unfold binFrom
    rw [List.exists_mem_cons_iff, ← digit_eq_none]
    split
    · next h => simp [h]
    · next h => simp [h, ih]

/-- The characters of a slice inside the line. -/
theorem getElem?_slice (l : Line) (a b k : Nat) : (slice l a b)[k]? = if k < b - a then l[a + k]? else none := by
  rw [slice, List.getElem?_take]
  split <;> simp

theorem exists_mem_slice {l : Line} {a b : Nat} {P : Char → Prop} :
    (∃ c ∈ slice l a b, P c) ↔ ∃ p c, a ≤ p ∧ p < b ∧ l[p]? = some c ∧ P c := by
  simp only [List.mem_iff_getElem?, getElem?_slice]
  constructor
  · rintro ⟨c, ⟨k, hk⟩, hc⟩
    split at hk
    · exact ⟨a + k, c, by omega, by omega, hk, hc⟩
    · cases hk
  · rintro ⟨p, c, ha, hb, hp, hc⟩
    exact ⟨c, ⟨p - a, by rw [if_pos (by omega), Nat.add_sub_cancel' ha, hp]⟩, hc⟩

namespace Machine

/-- A field cannot be read exactly when its slice leaves the line or holds a character that is not binary
(40_decoder R111). -/
theorem field_eq_none {line : Line} {a b : Nat} (hab : a < b) :
    field line a b = none ↔ line.length < b ∨ NonBinaryIn line a b := by
  by_cases h : b ≤ line.length
  · rw [field_of_inside h hab, binFrom_eq_none, exists_mem_slice]
    simp [NonBinaryIn, h]
  · simp only [field, show (line.length : Int) < b by omega, true_or, or_true, if_true, show line.length < b by omega]

theorem nonBinaryIn_split {line : Line} {a b c : Nat} (hab : a ≤ b) (hbc : b ≤ c) :
    NonBinaryIn line a c ↔ NonBinaryIn line a b ∨ NonBinaryIn line b c := by
  constructor
  · rintro ⟨p, x, ha, hc, hx⟩
    exact (lt_or_ge p b).imp (fun hp => ⟨p, x, ha, hp, hx⟩) fun hp => ⟨p, x, hp, hc, hx⟩
  · rintro (⟨p, x, ha, hb, hx⟩ | ⟨p, x, hb, hc, hx⟩)
    · exact ⟨p, x, ha, by omega, hx⟩
    · exact ⟨p, x, by omega, hc, hx⟩

end Machine

/-- Decoding fails exactly when one of the fields it reads cannot be read: which ones it reads after `arg2` depends on
`op_code` (40_decoder R112). -/
theorem decodeFields_eq_none {line : Line} :
    decodeFields line = none ↔
      field line 0 3 = none ∨ field line 3 9 = none ∨ field line 9 15 = none ∨
        (field line 0 3 = some 1 ∧ field line 15 21 = none) ∨ (field line 0 3 ≠ some 1 ∧ field line 15 27 = none) ∨
        ((∃ o < 4, field line 0 3 = some o) ∧ field line (line.length - 6) (line.length - 3) = none) := by
  rw [← not_iff_not, ← ne_eq, Option.ne_none_iff_exists']
  simp only [decodeFields_eq_some]
  constructor
  · rintro ⟨d, h0, h1, h2, h3, h4⟩
    rw [h0, h1, h2]
    split at h3 <;> split at h4 <;> simp_all
  · intro h
    simp only [not_or] at h
    obtain ⟨h0, h1, h2, h3, h3', h4⟩ := h
    obtain ⟨o, h0⟩ := Option.ne_none_iff_exists'.mp h0
    obtain ⟨a, h1⟩ := Option.ne_none_iff_exists'.mp h1
    obtain ⟨b, h2⟩ := Option.ne_none_iff_exists'.mp h2
    have hc : ∃ c, (if o = 1 then field line 15 21 else field line 15 27) = some c := by
      rw [h0] at h3 h3'
      split
      · next ho => exact Option.ne_none_iff_exists'.mp fun h => h3 ⟨by rw [ho], h⟩
      · next ho => exact Option.ne_none_iff_exists'.mp fun h => h3' ⟨by simpa using ho, h⟩
    have hf : ∃ f, (if o < 4 then field line (line.length - 6) (line.length - 3) else some 0) = some f := by
      split
      · next ho => exact Option.ne_none_iff_exists'.mp fun h => h4 ⟨⟨o, ho, h0⟩, h⟩
      · exact ⟨0, rfl⟩
    obtain ⟨c, hc⟩ := hc
    obtain ⟨f, hf⟩ := hf
    exact ⟨⟨o, a, b, c, f⟩, h0, h1, h2, hc, hf⟩

/-! ## The `op_code` of a line -/

/-- `op_code` is read from the first three characters alone. -/
theorem field_opCode (x y z : Char) (rest : Line) : field (x :: y :: z :: rest) 0 3 = binFrom 0 [x, y, z] :=
  field_of_inside (a := 0) (b := 3) (by simp) (by decide)

theorem opCode_eq_none_of_length {line : Line} (h : line.length < 3) : field line 0 3 = none :=
  (Machine.field_eq_none (a := 0) (b := 3) (by decide)).mpr (.inl h)

/-- `op_code` is 1 exactly when the line begins with `001`. -/
theorem opCode_eq_one_iff {line : Line} : field line 0 3 = some 1 ↔ line.take 3 = ['0', '0', '1'] := by
  match line with
  | [] | [_] | [_, _] => simp [opCode_eq_none_of_length]
  | x :: y :: z :: rest =>
    rw [field_opCode]
    simp only [binFrom, digit, List.take_succ_cons, List.take_zero]
    split_ifs <;> simp_all

/-- An `op_code` that can be read is below 4 exactly when the line begins with `0`. -/
theorem opCode_lt_four_iff {l : Line} (h : field l 0 3 ≠ none) : (∃ o < 4, field l 0 3 = some o) ↔ l[0]? = some '0' := by
  match l with
  | [] | [_] | [_, _] => exact absurd (opCode_eq_none_of_length (by simp)) h
  | x :: y :: z :: rest =>
    rw [field_opCode] at h ⊢
    simp only [binFrom, digit] at h ⊢
    split_ifs at h ⊢ <;> simp_all

/-! ## What a field depends on, and its value -/

theorem slice_congr {l l' : Line} {a b : Nat} (h : ∀ p, a ≤ p → p < b → l[p]? = l'[p]?) : slice l a b = slice l' a b := by
  refine List.ext_getElem? fun k => ?_
  rw [getElem?_slice, getElem?_slice]
  split
  · exact h _ (by omega) (by omega)
  · rfl

/-- A field depends on the length of the line and the characters of its slice. -/
theorem field_congr {l l' : Line} {a b : Nat} (hl : l.length = l'.length) (h : ∀ p, a ≤ p → p < b → l[p]? = l'[p]?) :
    field l a b = field l' a b := by
  rw [field, field, hl, Int.toNat_natCast, Int.toNat_natCast, slice_congr h]

/-- What two lines of 33 characters must share to decode alike: the positions of their format (30_encoding R88). -/
theorem decodeFields_congr {l l' : Line} (hl : l.length = 33) (hl' : l'.length = 33) (h0 : ∀ p < 15, l[p]? = l'[p]?)
    (h1 : l.take 3 = ['0', '0', '1'] → ∀ p, 15 ≤ p → p < 21 → l[p]? = l'[p]?)
    (h1' : l.take 3 ≠ ['0', '0', '1'] → ∀ p, 15 ≤ p → p < 27 → l[p]? = l'[p]?)
    (h4 : l[0]? = some '0' → ∀ p, 27 ≤ p → p < 30 → l[p]? = l'[p]?) : decodeFields l = decodeFields l' := by
  have hlen := hl.trans hl'.symm
  have e0 : field l 0 3 = field l' 0 3 := field_congr (a := 0) (b := 3) hlen fun p _ hp => h0 p (by omega)
  have e1 : field l 3 9 = field l' 3 9 := field_congr (a := 3) (b := 9) hlen fun p _ hp => h0 p (by omega)
  have e2 : field l 9 15 = field l' 9 15 := field_congr (a := 9) (b := 15) hlen fun p _ hp => h0 p (by omega)
  have e3 (h : field l 0 3 = some 1) : field l 15 21 = field l' 15 21 :=
    field_congr (a := 15) (b := 21) hlen (h1 (opCode_eq_one_iff.mp h))
  have e3' (h : field l 0 3 ≠ some 1) : field l 15 27 = field l' 15 27 :=
    field_congr (a := 15) (b := 27) hlen (h1' (mt opCode_eq_one_iff.mpr h))
  refine Option.ext fun d => ?_
  rw [decodeFields_eq_some, decodeFields_eq_some, ← e0, ← e1, ← e2, hl, hl']
  refine and_congr_right fun ho => and_congr_right' (and_congr_right' (and_congr ?_ ?_))
  · split
    · next hd => rw [e3 (hd ▸ ho)]
    · next hd => rw [e3' fun h => hd (Option.some.inj (ho.symm.trans h))]
  · split
    · next hd =>
      have h0 := (opCode_lt_four_iff (by simp [ho])).mp ⟨d.opCode, hd, ho⟩
      exact iff_of_eq (congrArg (· = _) (field_congr (a := 27) (b := 30) hlen (h4 h0)))
    · rfl

/-- A run of binary characters read from an accumulator is the accumulator, shifted, and the sum of the powers of two at the
places of its characters `1` (30_encoding R82). -/
theorem binFrom_eq_sum (l : Line) (h : ∀ c ∈ l, c = '0' ∨ c = '1') (acc : Nat) :
    binFrom acc l = some (acc * 2 ^ l.length +
      ∑ k ∈ Finset.range l.length, if l[k]? = some '1' then 2 ^ (l.length - 1 - k) else 0) := by
  induction l generalizing acc with
  | nil => simp [binFrom]
  | cons c cs ih =>
    obtain ⟨hc, hcs⟩ := List.forall_mem_cons.mp h
    have hd : digit c = some (if c = '1' then 1 else 0) := by rcases hc with rfl | rfl <;> rfl
    simp only [binFrom, hd, ih hcs, List.length_cons, Finset.sum_range_succ', List.getElem?_cons_succ,
      List.getElem?_cons_zero, Option.some.injEq, Nat.add_sub_cancel, Nat.sub_zero, Nat.sub_sub, Nat.add_comm 1]
    split <;> ring

namespace Machine

/-! ## The statements -/

/-- Settles O27: the fields that the Decoder reads, and when each cannot be read. -/
theorem decodeErrorExactlyOnUnreadableFields : Obligations.DecodeErrorExactlyOnUnreadableFields := by
  intro l
  have e0 : field l 0 3 = none ↔ _ := field_eq_none (a := 0) (b := 3) (by decide)
  have e1 : field l 3 9 = none ↔ _ := field_eq_none (a := 3) (b := 9) (by decide)
  have e2 : field l 9 15 = none ↔ _ := field_eq_none (a := 9) (b := 15) (by decide)
  have e3 : field l 15 21 = none ↔ _ := field_eq_none (a := 15) (b := 21) (by decide)
  have e3' : field l 15 27 = none ↔ _ := field_eq_none (a := 15) (b := 27) (by decide)
  have e12 := nonBinaryIn_split (line := l) (a := 3) (b := 9) (c := 15) (by decide) (by decide)
  simp only [decode_eq_error, and_true, decodeFields_eq_none]
  by_cases h0 : field l 0 3 = none
  · simp [h0, e0.mp h0]
  by_cases hL : l.length < 15
  · simp [e2, hL]
  have e4 : field l (l.length - 6) (l.length - 3) = none ↔ NonBinaryIn l (l.length - 6) (l.length - 3) := by
    have h := field_eq_none (line := l) (a := l.length - 6) (b := l.length - 3) (by omega)
    rwa [Nat.cast_sub (by omega), Nat.cast_sub (by omega), or_iff_right (by omega)] at h
  rw [opCode_lt_four_iff h0, e1, e2, e3, e3', e4, e12, or_iff_right h0, or_iff_right (mt e0.mpr h0)]
  simp only [show ¬l.length < 9 by omega, hL, false_or, or_assoc, ne_eq, opCode_eq_one_iff]

/-- Settles O30: the value of a run of binary characters, for the slice of the field. -/
theorem fieldIsPositionalNumeral : Obligations.FieldIsPositionalNumeral := by
  intro l a b hab hb hbin
  have hmem : ∀ c ∈ slice l a b, c = '0' ∨ c = '1' := by
    intro c hc
    obtain ⟨p, _, ha, hp, he, rfl⟩ := exists_mem_slice.mp ⟨c, hc, rfl⟩
    simpa [he] using hbin p ha hp
  have hlen : (slice l a b).length = b - a := by
    simp [slice]
    omega
  rw [field_of_inside hb hab, binFrom_eq_sum _ hmem, hlen, Nat.zero_mul, Nat.zero_add]
  congr 1
  refine Finset.sum_congr rfl fun k hk => ?_
  rw [getElem?_slice, if_pos (Finset.mem_range.mp hk)]

/-- Settles O31: each premise gives the positions of the line's format. -/
theorem ignoredCharactersAreNotRead : Obligations.IgnoredCharactersAreNotRead := by
  intro l l' hl hl'
  refine ⟨fun h => ?_, fun h1 h => ?_, fun h1 h => ?_⟩
  · exact decodeFields_congr hl hl' (fun p _ => h p (by omega)) (fun _ p _ _ => h p (by omega))
      (fun _ p _ _ => h p (by omega)) (fun _ p _ _ => h p (by omega))
  · exact decodeFields_congr hl hl' (fun p _ => h p (by omega)) (fun _ p _ _ => h p (by omega))
      (fun hn => absurd h1 hn) (fun _ p _ _ => h p (by omega))
  · exact decodeFields_congr hl hl' (fun p _ => h p (by omega)) (fun _ p _ _ => h p (by omega))
      (fun _ p _ _ => h p (by omega)) (fun h0 => by simp [h1] at h0)

end Machine
end Sys2Proof
end

section
/-! PROOFS. The opcode table as masks (30_encoding R97): which row a word selects, from its `op_code` and `function` bits, and
from this the statements about the table and about the words written out. -/

namespace Sys2Proof

/-- A word with nothing but the bits that select a row: `op_code`, bits 32 to 30, and `function`, bits 5 to 3
(30_encoding R97). -/
def selector (o f : Nat) : Nat :=
  o <<< 30 ||| f <<< 3

/-- Masking with all selecting bits keeps the two fields and nothing else. -/
theorem and_selector {iw : Nat} (h : iw < 2 ^ 33) : iw &&& selector 7 7 = selector (iw / 2 ^ 30) (iw / 2 ^ 3 % 8) := by
  refine Nat.eq_of_testBit_eq fun i => ?_
  rw [selector, selector, show 7 = 2 ^ 3 - 1 from rfl, show 8 = 2 ^ 3 from rfl]
  simp only [Nat.testBit_and, Nat.testBit_or, Nat.testBit_shiftLeft, Nat.testBit_two_pow_sub_one, Nat.testBit_mod_two_pow,
    Nat.testBit_div_two_pow]
  by_cases h30 : 30 ≤ i
  · rw [Nat.sub_add_cancel h30]
    by_cases h33 : i < 33
    · simp [h30, show i - 30 < 3 by omega, show ¬i - 3 < 3 by omega]
    · have hi : iw.testBit i = false := Nat.testBit_lt_two_pow (h.trans_le (Nat.pow_le_pow_right (by decide) (by omega)))
      simp [hi, show ¬i - 3 < 3 by omega]
  · by_cases h3 : 3 ≤ i
    · simp [h30, h3, Nat.sub_add_cancel h3, Bool.and_comm]
    · simp [h30, h3]

/-- The row that `op_code` and `function` select, whatever the arguments. -/
def rowOf (o f : Nat) : TableRow :=
  (Decoded.mk o 0 0 0 f).toInstr.row

theorem row_toInstr (d : Decoded) : d.toInstr.row = rowOf d.opCode d.function := by
  obtain ⟨o, a, b, c, f⟩ := d
  unfold rowOf Decoded.toInstr
  dsimp only
  split <;> rfl

/-- Every row's mask lies within the selecting bits. -/
theorem selector_mask (i : Instr) : selector 7 7 &&& i.row.mask = i.row.mask := by
  cases i <;> (dsimp only [Instr.row]; decide)

/-- A row is the one that a pair of selecting fields stands for exactly when those fields have the row's value under its
mask. -/
theorem row_eq_rowOf_iff (i : Instr) : ∀ o < 8, ∀ f < 8,
    (selector o f &&& i.row.mask = i.row.value ↔ i.row = rowOf o f) := by
  cases i <;> (dsimp only [Instr.row]; decide)

/-- A 33-bit word matches exactly the row that its selecting fields stand for. -/
theorem rowMatches_iff {iw : Nat} (h : iw < 2 ^ 33) (i : Instr) :
    i.rowMatches iw = true ↔ i.row = rowOf (iw / 2 ^ 30) (iw / 2 ^ 3 % 8) := by
  rw [Instr.rowMatches, decide_eq_true_eq, ← selector_mask, ← Nat.and_assoc, and_selector h]
  exact row_eq_rowOf_iff i _ (by omega) _ (by omega)

/-- From `op_code` 4 up the row does not depend on `function`. -/
theorem rowOf_of_four_le {o f : Nat} (h : 4 ≤ o) : rowOf o f = rowOf o 0 := by
  match o, h with
  | 4, _ | 5, _ | 6, _ | _ + 7, _ => rfl

theorem row_wordFields (iw : Nat) : (wordFields iw).toInstr.row = rowOf (iw / 2 ^ 30) (iw / 2 ^ 3 % 8) := by
  rw [row_toInstr]
  simp only [wordFields]
  split
  · rfl
  · next h => exact (rowOf_of_four_le (Nat.not_lt.mp h)).symm

theorem decodeTableWord_eq {iw : Nat} (h : iw < 2 ^ 33) : decodeTableWord 33 iw = some (wordFields iw).toInstr := by
  rw [decodeTableWord, if_pos h, decode, decodeFields_lineOfWord h]

namespace Machine

/-! ## The statements -/

/-- Settles O29: a word matches exactly the row of its selecting fields, which is the row of what it decodes to. -/
theorem opcodeTableSelectsDecodedRow : Obligations.OpcodeTableSelectsDecodedRow := fun iw h =>
  ⟨(wordFields iw).toInstr, decodeTableWord_eq h, (rowMatches_iff h _).mpr (row_wordFields iw), fun j hj =>
    ((rowMatches_iff h j).mp hj).trans (row_wordFields iw).symm⟩

/-- Settles O24: each word is the one its fields are slices of. -/
theorem writtenOutWordsDecode : Obligations.WrittenOutWordsDecode := by
  refine ⟨?_, ?_, ?_, ?_, ?_, ?_⟩
  all_goals exact decodeTableWord_eq (by decide)

end Machine
end Sys2Proof
end

section
/-! PROOFS. What the Executor reads and changes (10_state, 45_fetch_step R211): an instruction is one action that the registers
alone, for a load with the memory, determine; the run status it leaves; the pc it sets; and the frame of each family. -/

namespace Sys2Proof
namespace Machine

section
variable {i : Instr} {s t : State} {a b c : Nat}

/-! ## What an effect changes -/

theorem Effect.mem_of_ne_store (e : Effect i s t) (h : i.fields.opCode ≠ 5) : t.mem = s.mem := by
  cases e with
  | raised | wrote | branched => rfl
  | stored _ _ _ op => exact absurd op h

/-- Every effect keeps the canonical form of memory. -/
theorem Effect.wf_mem (e : Effect i s t) (h : s.mem.wf = true) : t.mem.wf = true := by
  cases e with
  | raised | wrote | branched => exact h
  | stored a v ha => exact Memory.wf_writeWord _ h v ha

/-- An effect that is not a fault advances the pc, or sets it to a branch's target. -/
theorem Effect.pc_cases (e : Effect i s t) :
    (∃ k, t = takeFault (.executionError k) s) ∨ t.pc = s.pc + 1 ∨ (i.fields.opCode = 3 ∧ t.pc = i.fields.arg3) := by
  cases e with
  | raised k => exact .inl ⟨k, rfl⟩
  | wrote | stored => exact .inr (.inl rfl)
  | branched p h op => exact .inr (h.symm.imp id fun h => ⟨op, h⟩)

/-! ## An instruction as an action -/

/-- What an instruction does, as data that names no state. -/
inductive Action where
  | fault (k : Cause)
  | write (d : Fin 32) (v : Word)
  | jump (target : Nat)
  | advance
  | store (a : Nat) (v : Word)

/-- The state an action leaves. -/
def Action.apply : Action → State → State
  | .fault k, s => takeFault (.executionError k) s
  | .write d v, s => (s.setReg d v).advance
  | .jump target, s => s.setPc target
  | .advance, s => s.advance
  | .store a v, s => (s.setMem (s.mem.writeWord a v)).advance

theorem finishAlu_action (d : Fin 32) (r : Except Cause Word) :
    ∃ act : Action, ∀ s, finishAlu d r s = .next (act.apply s) := by
  cases r with
  | ok v => exact ⟨.write d v, fun _ => rfl⟩
  | error k => exact ⟨.fault k, fun _ => rfl⟩

theorem execR_action (op : Word → Word → Except Cause Word) (a b c : Nat) (s : State) :
    ∃ act : Action, ∀ s' : State, s'.regs = s.regs → execR op a b c s' = .next (act.apply s') := by
  by_cases h : a < 32 ∧ b < 32 ∧ c < 32
  · obtain ⟨ha, hb, hc⟩ := h
    obtain ⟨act, hact⟩ := finishAlu_action ⟨a, ha⟩ (op (s.reg ⟨b, hb⟩) (s.reg ⟨c, hc⟩))
    refine ⟨act, fun s' hs => ?_⟩
    rw [execR_of_lt op ha hb hc, ← hact, State.reg, State.reg, hs]
    rfl
  · exact ⟨.fault _, fun _ _ => execR_of_not op h⟩

theorem execI_action (op : Word → Word → Except Cause Word) (a b c : Nat) (s : State) :
    ∃ act : Action, ∀ s' : State, s'.regs = s.regs → execI op a b c s' = .next (act.apply s') := by
  by_cases h : a < 32 ∧ b < 32
  · obtain ⟨ha, hb⟩ := h
    obtain ⟨act, hact⟩ := finishAlu_action ⟨a, ha⟩ (op (s.reg ⟨b, hb⟩) (zext32 c))
    refine ⟨act, fun s' hs => ?_⟩
    rw [execI_of_lt op ha hb, ← hact, State.reg, hs]
    rfl
  · exact ⟨.fault _, fun _ _ => execI_of_not op h⟩

theorem execB_action (cond : Word → Word → Bool) (a b c : Nat) (s : State) :
    ∃ act : Action, ∀ s' : State, s'.regs = s.regs → execB cond a b c s' = .next (act.apply s') := by
  by_cases h : a < 32 ∧ b < 32
  · obtain ⟨ha, hb⟩ := h
    refine ⟨if cond (s.reg ⟨a, ha⟩) (s.reg ⟨b, hb⟩) then .jump c else .advance, fun s' hs => ?_⟩
    rw [execB_of_lt cond ha hb, State.reg, State.reg, hs, ← State.reg, ← State.reg]
    split <;> rfl
  · exact ⟨.fault _, fun _ _ => execB_of_not cond h⟩

/-- A word fits at an address, begins in memory without fitting, or begins beyond it (20_memory R58, R59). -/
theorem address_cases (e : Nat) : e ≤ 28 ∨ (28 < e ∧ e < 32) ∨ 32 ≤ e := by omega

/-- Where the action of an access is known, that of the load or store is: it, or a fault of the checks. -/
theorem execM_action (body : Fin 32 → Nat → State → State) (P : State → Prop) (a b c : Nat) (s : State)
    (hbody : ∀ r e, ∃ act : Action, ∀ s' : State, s'.regs = s.regs → P s' → (body r e s').advance = act.apply s') :
    ∃ act : Action, ∀ s' : State, s'.regs = s.regs → P s' → execM body a b c s' = .next (act.apply s') := by
  by_cases h : a < 32 ∧ b < 32
  · obtain ⟨ha, hb⟩ := h
    have haddr : ∀ s' : State, s'.regs = s.regs → effAddr ⟨b, hb⟩ c s' = effAddr ⟨b, hb⟩ c s := by
      intro s' hs
      rw [effAddr, effAddr, State.reg, State.reg, hs]
    rcases address_cases (effAddr ⟨b, hb⟩ c s) with h28 | ⟨h28, h32⟩ | h32
    · obtain ⟨act, hact⟩ := hbody ⟨a, ha⟩ (effAddr ⟨b, hb⟩ c s)
      refine ⟨act, fun s' hs hP => ?_⟩
      rw [execM_of_lt body ha hb (by rwa [haddr s' hs]), haddr s' hs, hact s' hs hP]
    · exact ⟨.fault _, fun s' hs _ =>
        execM_of_overrun body ha hb (by rwa [haddr s' hs]) (by rwa [haddr s' hs])⟩
    · exact ⟨.fault _, fun s' hs _ => execM_of_outside body ha hb (by rwa [haddr s' hs])⟩
  · exact ⟨.fault _, fun _ _ _ => execM_of_not body h⟩

/-- What an instruction does depends on the registers, and for a load on the memory, alone. -/
theorem exec_action (i : Instr) (s : State) :
    ∃ act : Action, ∀ s' : State, s'.regs = s.regs → (i.fields.opCode = 4 → s'.mem = s.mem) →
      exec i s' = .next (act.apply s') := by
  have drop {r : State → Result} (h : ∃ act : Action, ∀ s' : State, s'.regs = s.regs → r s' = .next (act.apply s')) :
      ∃ act : Action, ∀ s' : State, s'.regs = s.regs → (i.fields.opCode = 4 → s'.mem = s.mem) →
        r s' = .next (act.apply s') :=
    h.imp fun _ h s' hs _ => h s' hs
  cases i with
  | add | sub | mul | div | and | or | xor => exact drop (execR_action _ _ _ _ s)
  | addi | subi | muli | divi | andi | ori | xori => exact drop (execI_action _ _ _ _ s)
  | beq | bne | blt | bgt => exact drop (execB_action _ _ _ _ s)
  | lw a b c =>
    refine execM_action loadWord _ a b c s fun r e => ⟨.write r (s.mem.readWord e), fun s' _ hm => ?_⟩
    rw [loadWord, hm rfl]
    rfl
  | sw a b c =>
    refine execM_action storeWord _ a b c s fun r e => ⟨.store e (s.reg r), fun s' hs _ => ?_⟩
    rw [storeWord, State.reg, hs]
    rfl
  | illegalOp0 | illegalOp6 | illegalOp7 => exact ⟨.fault .unrecognizedOpcode, fun _ _ _ => rfl⟩
  | illegalOp1Fn0 a b c =>
    by_cases h : a < 32 ∧ b < 32 ∧ c < 32
    · exact ⟨.fault _, fun _ _ _ => if_pos h⟩
    · exact ⟨.fault _, fun _ _ _ => if_neg h⟩
  | illegalOp2Fn0 a b | illegalOp3Fn0 a b | illegalOp3Fn5 a b | illegalOp3Fn6Fn7 a b =>
    by_cases h : a < 32 ∧ b < 32
    · exact ⟨.fault _, fun _ _ _ => if_pos h⟩
    · exact ⟨.fault _, fun _ _ _ => if_neg h⟩

/-- The actions from two states with the same registers, and for a load the same memory, are one action. -/
theorem exec_same_action {s' : State} (h : exec i s = .next t) (hr : s'.regs = s.regs)
    (hm : i.fields.opCode = 4 → s'.mem = s.mem) :
    ∃ act : Action, t = act.apply s ∧ exec i s' = .next (act.apply s') := by
  obtain ⟨act, hact⟩ := exec_action i s
  have hs := hact s rfl fun _ => rfl
  rw [h] at hs
  exact ⟨act, Host.Outcome.next.inj hs, hact s' hr hm⟩

end

/-! ## The pc -/

section
variable {i : Instr} {s t : State} {a b c : Nat}

theorem condLt_iff (x y : Word) : condLt x y = true ↔ x.toNat < y.toNat := decide_eq_true_iff

theorem condGt_iff (x y : Word) : condGt x y = true ↔ y.toNat < x.toNat := decide_eq_true_iff

/-- A branch that did not fault went to its target exactly where its comparison holds. -/
theorem execB_pc {cond : Word → Word → Bool} (h : execB cond a b c s = .next t) (ht : t.status = .running) :
    t.pc = if cond (s.regAt a) (s.regAt b) then c else s.pc + 1 := by
  by_cases hab : a < 32 ∧ b < 32
  · obtain ⟨ha, hb⟩ := hab
    rw [execB_of_lt cond ha hb] at h
    rw [State.regAt_of_lt s a ha, State.regAt_of_lt s b hb, ← Host.Outcome.next.inj h]
    split <;> rfl
  · rw [execB_of_not cond hab] at h
    rw [← Host.Outcome.next.inj h] at ht
    cases ht

/-- An instruction of `op_code` 3 is a fault or compares two registers by the condition of its `function`. -/
theorem exec_of_opCode_three (s : State) (h : i.fields.opCode = 3) :
    (∃ k, exec i s = raise k s) ∨
      ∃ cond : Word → Word → Bool, (∀ x y, cond x y = true ↔ BranchTaken i.fields.function x y) ∧
        exec i s = execB cond i.fields.arg1 i.fields.arg2 i.fields.arg3 s := by
  cases i with
  | beq => exact .inr ⟨condEq, by simp [BranchTaken, Instr.fields, condEq_iff], rfl⟩
  | bne => exact .inr ⟨condNe, by simp [BranchTaken, Instr.fields, condNe_iff], rfl⟩
  | blt => exact .inr ⟨condLt, by simp [BranchTaken, Instr.fields, condLt_iff], rfl⟩
  | bgt => exact .inr ⟨condGt, by simp [BranchTaken, Instr.fields, condGt_iff], rfl⟩
  | illegalOp3Fn0 | illegalOp3Fn5 | illegalOp3Fn6Fn7 => exact .inl badFunctionIB_cases
  | _ => cases h

theorem status_ne_running_of_raise {k : Cause} (h : raise k s = .next t) : t.status ≠ .running := by
  rw [← Host.Outcome.next.inj h]
  exact nofun

/-- The pc after an instruction of `op_code` 3 that did not fault (43_branch R170). -/
theorem branch_pc (h : exec i s = .next t) (ht : t.status = .running) (hop : i.fields.opCode = 3) :
    (BranchTaken i.fields.function (s.regAt i.fields.arg1) (s.regAt i.fields.arg2) → t.pc = i.fields.arg3) ∧
    (¬BranchTaken i.fields.function (s.regAt i.fields.arg1) (s.regAt i.fields.arg2) → t.pc = s.pc + 1) := by
  rcases exec_of_opCode_three s hop with ⟨k, hk⟩ | ⟨cond, hcond, hx⟩
  · exact absurd ht (status_ne_running_of_raise (hk ▸ h))
  · rw [← hcond, execB_pc (hx ▸ h) ht]
    exact ⟨fun hc => if_pos hc, fun hc => if_neg hc⟩

end

/-! ## The frames -/

section
variable {i : Instr} {s t : State} {a b c f : Nat}

/-- An instruction that neither branches nor stores writes no register but its `arg1`. -/
theorem Effect.register_frame (e : Effect i s t) (h3 : i.fields.opCode ≠ 3) (h5 : i.fields.opCode ≠ 5) :
    ∀ k : Fin 32, k.val ≠ i.fields.arg1 → t.regs[k] = s.regs[k] := by
  intro k hk
  cases e with
  | raised => rfl
  | wrote d v hd => exact Vector.getElem_set_ne d.isLt k.isLt fun h => hk (h.symm.trans hd.symm)
  | branched _ _ op => exact absurd op h3
  | stored _ _ _ op => exact absurd op h5

/-- What SW leaves: a fault, or the word at the effective address and the next pc. -/
theorem execSw_cases (h : exec (.sw a b c) s = .next t) :
    (∃ k, t = takeFault (.executionError k) s) ∨
      ∃ (ha : a < 32) (hb : b < 32), effAddr ⟨b, hb⟩ c s ≤ 28 ∧
        t = (storeWord ⟨a, ha⟩ (effAddr ⟨b, hb⟩ c s) s).advance := by
  rw [show exec (.sw a b c) s = execM storeWord a b c s from rfl] at h
  by_cases hab : a < 32 ∧ b < 32
  · obtain ⟨ha, hb⟩ := hab
    rcases address_cases (effAddr ⟨b, hb⟩ c s) with h28 | ⟨h28, h32⟩ | h32
    · rw [execM_of_lt _ ha hb h28] at h
      exact .inr ⟨ha, hb, h28, (Host.Outcome.next.inj h).symm⟩
    · rw [execM_of_overrun _ ha hb h28 h32] at h
      exact .inl ⟨_, (Host.Outcome.next.inj h).symm⟩
    · rw [execM_of_outside _ ha hb h32] at h
      exact .inl ⟨_, (Host.Outcome.next.inj h).symm⟩
  · rw [execM_of_not _ hab] at h
    exact .inl ⟨_, (Host.Outcome.next.inj h).symm⟩

/-- The eight illegal rows of the opcode table, on given fields (30_encoding R92). -/
def illegalRows (a b c f : Nat) : List Instr :=
  [.illegalOp0 a b c f, .illegalOp6 a b c, .illegalOp7 a b c, .illegalOp1Fn0 a b c, .illegalOp2Fn0 a b c,
    .illegalOp3Fn0 a b c, .illegalOp3Fn5 a b c, .illegalOp3Fn6Fn7 a b c f]

theorem illegalRows_raise (h : i ∈ illegalRows a b c f) : ∃ k, exec i s = raise k s := by
  simp only [illegalRows, List.mem_cons, List.not_mem_nil, or_false] at h
  rcases h with rfl | rfl | rfl | rfl | rfl | rfl | rfl | rfl
  case inl | inr.inl | inr.inr.inl => all_goals exact ⟨_, rfl⟩
  case inr.inr.inr.inl => exact badFunctionR_cases
  all_goals exact badFunctionIB_cases

end

/-! ## The statements -/

/-- Settles O45: memory by the effect of the instruction, what it does not depend on by its action. -/
theorem memoryReadOnlyByLoadWrittenOnlyByStore : Obligations.MemoryReadOnlyByLoadWrittenOnlyByStore := by
  intro i s t h
  have e := effect_of_exec h
  refine ⟨e.mem_of_ne_store, fun h4 m u hu => ?_, e.wf_mem⟩
  obtain ⟨act, rfl, hact⟩ := exec_same_action (s' := { s with mem := m }) h rfl fun hop => absurd hop h4
  obtain rfl := Host.Outcome.next.inj (hu.symm.trans hact)
  cases act <;> exact ⟨rfl, rfl, rfl⟩

/-- Settles O46: the pc by the effect of the instruction and, for a branch, its condition; what does not depend on the pc by
its action. -/
theorem pcUpdateOfEveryInstruction : Obligations.PcUpdateOfEveryInstruction := by
  intro s hs
  refine ⟨fun i t h => ⟨fun ht h3 => ?_, branch_pc h, fun ht => ?_, fun p u hu => ?_⟩, fun line e t hf hd hstep => ?_⟩
  · rcases (effect_of_exec h).pc_cases with ⟨k, rfl⟩ | hpc | ⟨hop, -⟩
    · cases ht
    · exact hpc
    · exact absurd hop h3
  · rcases (effect_of_exec h).status_cases with ⟨k, rfl⟩ | ⟨hst, -⟩
    · rfl
    · exact absurd (hst.trans hs) ht
  · obtain ⟨act, rfl, hact⟩ := exec_same_action (s' := { s with pc := p }) h rfl fun _ => rfl
    obtain rfl := Host.Outcome.next.inj (hu.symm.trans hact)
    cases act <;> exact ⟨rfl, rfl, rfl⟩
  · cases cycle_of_step hstep with
    | held | halted | malformed | raised => rfl
    | completed _ l hl i hi =>
      obtain rfl := Option.some.inj (hf.symm.trans hl)
      cases hi.symm.trans hd

/-- Settles O47: the action of an instruction names no output, status or program, and only a fault touches them. -/
theorem executorReadsNoOutputStatusOrProgram : Obligations.ExecutorReadsNoOutputStatusOrProgram := by
  intro i s t o st p h
  obtain ⟨act, rfl, hact⟩ := exec_same_action (s' := { s with out := o, status := st, program := p }) h rfl fun _ => rfl
  refine ⟨_, hact, ?_⟩
  cases act with
  | fault k => exact ⟨rfl, rfl, rfl, .inl ⟨k, rfl, rfl⟩⟩
  | write | jump | advance | store => exact ⟨rfl, rfl, rfl, .inr ⟨rfl, rfl, rfl, rfl⟩⟩

/-- Settles O48: these instructions neither branch nor store, and their `arg1` is the first field. -/
theorem registerWritersFrame : Obligations.RegisterWritersFrame := by
  intro a b c s t i hi h
  have hf : i.fields.opCode ≠ 3 ∧ i.fields.opCode ≠ 5 ∧ i.fields.arg1 = a := by
    revert i
    simp [Instr.fields]
  obtain ⟨h3, h5, rfl⟩ := hf
  have e := effect_of_exec h
  exact ⟨e.register_frame h3 h5, fun n => by rw [e.mem_of_ne_store h5], e.program, e.status_cases.symm⟩

/-- Settles O49: a branch is a fault or sets the pc. -/
theorem branchFrame : Obligations.BranchFrame := by
  intro a b c s t i hi h
  have e := effect_of_exec h
  have hop : i.fields.opCode = 3 := by
    revert i
    simp [Instr.fields]
  have hregs : t.regs = s.regs := by
    rcases exec_of_opCode_three s hop with ⟨k, hk⟩ | ⟨cond, -, hx⟩
    · rw [← Host.Outcome.next.inj (hk.symm.trans h)]
      rfl
    · rcases execB_cases (s := s) cond with ⟨k, hk⟩ | ⟨p, -, hp⟩
      · rw [← Host.Outcome.next.inj ((hx.trans hk).symm.trans h)]
        rfl
      · rw [← Host.Outcome.next.inj ((hx.trans hp).symm.trans h)]
        rfl
  exact ⟨hregs, fun n => by rw [e.mem_of_ne_store (by omega)], e.program, e.status_cases.symm⟩

/-- Settles O50: the word store leaves every byte outside its four alone. -/
theorem storeFrame : Obligations.StoreFrame := by
  intro a b c s t h
  rcases execSw_cases h with ⟨k, rfl⟩ | ⟨ha, hb, -, rfl⟩
  · exact ⟨rfl, rfl, fun _ _ _ => rfl, .inr ⟨k, rfl⟩⟩
  · exact ⟨rfl, rfl, fun _ n hn => Memory.read_writeWord_outside _ _ hn, .inl ⟨rfl, rfl⟩⟩

/-- Settles O51: an illegal row raises, whatever its fields. -/
theorem illegalRowsFrame : Obligations.IllegalRowsFrame := by
  intro a b c f s t i hi h
  obtain ⟨k, hk⟩ := illegalRows_raise (s := s) hi
  rw [← Host.Outcome.next.inj (hk.symm.trans h)]
  exact ⟨⟨k, rfl⟩, rfl, fun _ => rfl, rfl, rfl⟩

end Machine
end Sys2Proof
end

section
/-! PROOFS. The cycle (45_fetch_step, 60_exceptions): what each outcome of a step keeps and puts out, and from these the
statements about the step, about runs, and about the invariant and the hardware form of the machine. -/

namespace Sys2Proof
namespace Machine

section
variable {s t : State}

/-! ## What each outcome keeps -/

theorem Cycle.program (c : Cycle s t) : t.program = s.program := by
  cases c with
  | held | halted | malformed | raised => rfl
  | completed _ _ _ _ _ _ hx => exact (effect_of_exec hx).program

theorem Cycle.of_running (c : Cycle s t) (h : s.status = .running) (ht : t.status = .running) :
    ∃ line i u, s.program[s.pc]? = some line ∧ decode line = .ok i ∧ exec i s = .next u ∧
      t = { u with out := .trace (traceRecord i u) :: s.out } := by
  cases c with
  | held hn => exact absurd h hn
  | halted | malformed | raised => cases ht
  | completed _ line hf i hd u hx => exact ⟨line, i, u, hf, hd, hx, rfl⟩

/-- A cycle that ends in a fault has taken it at a line. -/
theorem Cycle.of_faulted (c : Cycle s t) (h : s.status = .running) {info : FaultInfo} (ht : t.status = .faulted info) :
    t = takeFault info s ∧ s.pc < s.program.length := by
  cases c with
  | held hn => exact absurd h hn
  | halted => cases ht
  | malformed _ _ hf | raised _ _ hf =>
    obtain rfl := RunStatus.faulted.inj ht
    exact ⟨rfl, lt_length_of_fetched hf⟩
  | completed _ _ _ _ _ _ _ hu => cases hu.symm.trans ht

theorem Cycle.of_halted (c : Cycle s t) (h : s.status = .running) (ht : t.status = .halted) :
    t = halt s ∧ s.program.length ≤ s.pc := by
  cases c with
  | held hn => exact absurd h hn
  | halted _ hpc => exact ⟨rfl, hpc⟩
  | malformed | raised => cases ht
  | completed _ _ _ _ _ _ _ hu => cases hu.symm.trans ht

/-! ## The outputs -/

theorem Cycle.trace_of_not_running (c : Cycle s t) (ht : t.status ≠ .running) :
    traceRecords t.out = traceRecords s.out := by
  cases c with
  | held | halted | malformed | raised => rfl
  | completed _ _ _ _ _ _ _ hu => exact absurd hu ht

/-! ## The invariant -/

/-- An `arg3` that is a branch target fits its 12 bits (30_encoding R86). -/
theorem target_le {i : Instr} (h : i.wf = true) (hop : i.fields.opCode = 3) : i.fields.arg3 ≤ 4095 := by
  obtain ⟨-, -, -, h3, -⟩ := (Decoded.wf_iff _).mp (Instr.fields_wf h)
  rw [if_neg (by omega)] at h3
  omega

/-- The pc is as before, or the next line's after one that stands in the store, or a branch target (10_state R26). -/
theorem Cycle.pc_cases (c : Cycle s t) : t.pc = s.pc ∨ (s.pc < s.program.length ∧ t.pc = s.pc + 1) ∨ t.pc ≤ 4095 := by
  cases c with
  | held | halted | malformed | raised => exact .inl rfl
  | completed _ _ hf i hd u hx =>
    rcases (effect_of_exec hx).pc_cases with ⟨k, rfl⟩ | hpc | ⟨hop, hpc⟩
    · exact .inl rfl
    · exact .inr (.inl ⟨lt_length_of_fetched hf, hpc⟩)
    · exact .inr (.inr (hpc ▸ target_le (decode_ok_fields hd).1 hop))

theorem Cycle.wf_mem (c : Cycle s t) (h : s.mem.wf = true) : t.mem.wf = true := by
  cases c with
  | held | halted | malformed | raised => exact h
  | completed _ _ _ _ _ _ hx => exact (effect_of_exec hx).wf_mem h

theorem Cycle.pcBounded (c : Cycle s t) (h : s.PcBounded) : t.PcBounded := by
  simp only [State.PcBounded, Config.maxTarget] at h ⊢
  rw [c.program]
  rcases c.pc_cases with hpc | ⟨hlt, hpc⟩ | hpc <;> omega

/-- A fault taken from a running state is undone by setting the status back and dropping its report. -/
theorem untake_fault (info : FaultInfo) (h : s.status = .running) :
    { takeFault info s with status := .running, out := (takeFault info s).out.tail } = s := by
  rw [← h]
  rfl

theorem Cycle.statusExplained (c : Cycle s t) (h : s.StatusExplained) : t.StatusExplained := by
  cases c with
  | held => exact h
  | halted _ hpc => exact hpc
  | malformed _ line hf hd => exact ⟨hf, hd⟩
  | raised hs line hf i hd k hx => exact ⟨line, i, hf, hd, by rw [untake_fault _ hs, hx]⟩
  | completed _ _ _ _ _ u _ hu =>
    unfold State.StatusExplained
    rw [show State.status _ = .running from hu]
    trivial

theorem reportedOnce_of_running (h : s.status = .running) : s.ReportedOnce ↔ faultReports s.out = [] := by
  rw [State.ReportedOnce, h]

theorem Cycle.reportedOnce (c : Cycle s t) (h : s.ReportedOnce) : t.ReportedOnce := by
  cases c with
  | held => exact h
  | halted hs => exact (reportedOnce_of_running hs).mp h
  | malformed hs | raised hs => exact congrArg (_ :: ·) ((reportedOnce_of_running hs).mp h)
  | completed hs _ _ i _ u _ hu =>
    exact (reportedOnce_of_running (s := { u with out := .trace (traceRecord i u) :: s.out }) hu).mpr
      ((reportedOnce_of_running hs).mp h)

theorem Cycle.traceCurrent (c : Cycle s t) (h : s.TraceCurrent) : t.TraceCurrent := by
  cases c with
  | held | halted | malformed | raised => exact h
  | completed =>
    intro r hr
    obtain rfl := Option.some.inj hr
    exact ⟨rfl, rfl, rfl⟩

theorem Cycle.inv (c : Cycle s t) (h : s.Inv) : t.Inv where
  memory := c.wf_mem h.memory
  pcBounded := c.pcBounded h.pcBounded
  explained := c.statusExplained h.explained
  reported := c.reportedOnce h.reported
  trace := c.traceCurrent h.trace

/-- A state as the host starts one meets the invariant (10_state R36). -/
theorem inv_of_start (hm : s.mem.wf = true) (hpc : s.pc = 0) (hs : s.status = .running) (ho : s.out = []) : s.Inv where
  memory := hm
  pcBounded := by rw [State.PcBounded, hpc]; exact Nat.zero_le _
  explained := by rw [State.StatusExplained, hs]; trivial
  reported := by rw [State.ReportedOnce, hs, ho]; rfl
  trace := by rw [State.TraceCurrent, ho]; exact nofun

/-! ## The hardware form -/

/-- A canonical line always decodes (40_decoder R113). -/
theorem exists_decode_of_canonicalLine {line : Line} (h : canonicalLine line = true) : ∃ i, decode line = .ok i := by
  obtain ⟨hlen, hbin⟩ := canonicalLine_iff.mp h
  have hnb (a b : Nat) : ¬NonBinaryIn line a b := by
    rintro ⟨p, c, -, -, hp, h0, h1⟩
    exact (hbin c (List.mem_of_getElem? hp)).elim h0 h1
  have hok : decode line ≠ .error (.malformedLine line) := by
    simp [decodeErrorExactlyOnUnreadableFields line, hlen, hnb]
  cases hd : decode line with
  | ok i => exact ⟨i, rfl⟩
  | error e =>
    obtain ⟨l⟩ := e
    obtain rfl := decode_error_eq hd
    exact absurd hd hok

theorem Cycle.hardwareForm (c : Cycle s t) (h : s.HardwareForm) : t.HardwareForm where
  length := c.program ▸ h.length
  canonical := c.program ▸ h.canonical
  pc := by
    have hlen := h.length
    have hpc := h.pc
    rcases c.pc_cases with ht | ⟨hlt, ht⟩ | ht <;> simp only [Config.nmax] at * <;> omega

theorem Cycle.no_decodeError (c : Cycle s t) (h : s.HardwareForm) (hs : s.status = .running) (line : Line) :
    t.status ≠ .faulted (.decodeError line) := by
  intro ht
  cases c with
  | held hn => exact hn hs
  | halted => cases ht
  | raised => cases ht
  | malformed _ l hf hd =>
    obtain ⟨i, hi⟩ := exists_decode_of_canonicalLine (h.canonical l (List.mem_of_getElem? hf))
    cases hi.symm.trans hd
  | completed _ _ _ _ _ _ _ hu => cases hu.symm.trans ht

end

/-! ## The run status -/

section
variable {s t : State} {a b c : Nat}

/-- The status after an operation: it goes on, or the operation's fault is taken. -/
def statusAfter (st : RunStatus) : Except Cause Word → RunStatus
  | .ok _ => st
  | .error k => .faulted (.executionError k)

theorem finishAlu_status {d : Fin 32} {r : Except Cause Word} (h : finishAlu d r s = .next t) :
    t.status = statusAfter s.status r := by
  cases r with
  | ok v | error k =>
    rw [← Host.Outcome.next.inj h]
    rfl

theorem raise_status {k : Cause} (h : raise k s = .next t) : t.status = .faulted (.executionError k) := by
  rw [← Host.Outcome.next.inj h]
  rfl

theorem execR_status {op : Word → Word → Except Cause Word} (h : execR op a b c s = .next t) :
    t.status = if 32 ≤ a ∨ 32 ≤ b ∨ 32 ≤ c then .faulted (.executionError .registerIndexOutOfBounds)
      else statusAfter s.status (op (s.regAt b) (s.regAt c)) := by
  by_cases hr : 32 ≤ a ∨ 32 ≤ b ∨ 32 ≤ c
  · rw [if_pos hr]
    exact raise_status ((execR_of_not op (by omega)).symm.trans h)
  · rw [if_neg hr, State.regAt_of_lt s b (by omega), State.regAt_of_lt s c (by omega)]
    exact finishAlu_status ((execR_of_lt op (by omega) (by omega) (by omega)).symm.trans h)

theorem execI_status {op : Word → Word → Except Cause Word} (h : execI op a b c s = .next t) :
    t.status = if 32 ≤ a ∨ 32 ≤ b then .faulted (.executionError .registerIndexOutOfBounds)
      else statusAfter s.status (op (s.regAt b) (zext32 c)) := by
  by_cases hr : 32 ≤ a ∨ 32 ≤ b
  · rw [if_pos hr]
    exact raise_status ((execI_of_not op (by omega)).symm.trans h)
  · rw [if_neg hr, State.regAt_of_lt s b (by omega)]
    exact finishAlu_status ((execI_of_lt op (by omega) (by omega)).symm.trans h)

theorem execB_status {cond : Word → Word → Bool} (h : execB cond a b c s = .next t) :
    t.status = if 32 ≤ a ∨ 32 ≤ b then .faulted (.executionError .registerIndexOutOfBounds) else s.status := by
  by_cases hr : 32 ≤ a ∨ 32 ≤ b
  · rw [if_pos hr]
    exact raise_status ((execB_of_not cond (by omega)).symm.trans h)
  · rw [if_neg hr]
    rw [execB_of_lt cond (by omega) (by omega)] at h
    rw [← Host.Outcome.next.inj h]
    split <;> rfl

theorem execM_status {body : Fin 32 → Nat → State → State} (hbody : ∀ r e s, (body r e s).status = s.status)
    (h : execM body a b c s = .next t) :
    t.status = if 32 ≤ a ∨ 32 ≤ b then .faulted (.executionError .registerIndexOutOfBounds)
      else if 32 ≤ (s.regAt b).toNat + c then .faulted (.executionError .memoryAddressOutOfBounds)
      else if 28 < (s.regAt b).toNat + c then .faulted (.executionError .memoryWordOverrun) else s.status := by
  by_cases hr : 32 ≤ a ∨ 32 ≤ b
  · rw [if_pos hr]
    exact raise_status ((execM_of_not body (by omega)).symm.trans h)
  · have ha : a < 32 := by omega
    have hb : b < 32 := by omega
    rw [if_neg hr, show (s.regAt b).toNat + c = effAddr ⟨b, hb⟩ c s by rw [effAddr, State.regAt_of_lt s b hb]]
    split
    · next h32 => exact raise_status ((execM_of_outside body ha hb h32).symm.trans h)
    · split
      · next h28 => exact raise_status ((execM_of_overrun body ha hb h28 (by omega)).symm.trans h)
      · rw [execM_of_lt body ha hb (by omega)] at h
        rw [← Host.Outcome.next.inj h]
        exact hbody _ _ _

theorem badFunctionR_status (h : badFunctionR a b c s = .next t) :
    t.status = if 32 ≤ a ∨ 32 ≤ b ∨ 32 ≤ c then .faulted (.executionError .registerIndexOutOfBounds)
      else .faulted (.executionError .unrecognizedFunction) := by
  unfold badFunctionR at h
  split at h
  · rw [if_neg (by omega), raise_status h]
  · rw [if_pos (by omega), raise_status h]

theorem badFunctionIB_status (h : badFunctionIB a b s = .next t) :
    t.status = if 32 ≤ a ∨ 32 ≤ b then .faulted (.executionError .registerIndexOutOfBounds)
      else .faulted (.executionError .unrecognizedFunction) := by
  unfold badFunctionIB at h
  split at h
  · rw [if_neg (by omega), raise_status h]
  · rw [if_pos (by omega), raise_status h]

/-- The status after a division, by its divisor (41_alu_reg R134). -/
theorem statusAfter_opDiv (st : RunStatus) (x y : Word) :
    statusAfter st (opDiv x y) = if y.toNat = 0 then .faulted (.executionError .divisionByZero) else st := by
  unfold opDiv
  split <;> rfl

/-- The checks of every instruction, in the order of 60_exceptions R236. -/
theorem exec_status {i : Instr} (hs : s.status = .running) (hi : i.wf = true) (h : exec i s = .next t) :
    t.status = statusByPriority i.fields s := by
  cases i with
  | add | sub | mul | and | or | xor =>
    rw [execR_status h, hs]
    simp [statusByPriority, Instr.fields, statusAfter, opAdd, opSub, opMul, opAnd, opOr, opXor]
  | div =>
    rw [execR_status h, hs, statusAfter_opDiv]
    simp [statusByPriority, Instr.fields]
  | addi | subi | muli | andi | ori | xori =>
    rw [execI_status h, hs]
    simp [statusByPriority, Instr.fields, statusAfter, opAdd, opSub, opMul, opAnd, opOr, opXor]
  | divi a b c =>
    have hc : c < 4096 := ((Decoded.wf_iff _).mp (Instr.fields_wf hi)).2.2.2.1
    rw [execI_status h, hs, statusAfter_opDiv, toNat_zext32 (by omega)]
    simp [statusByPriority, Instr.fields]
  | beq | bne | blt | bgt =>
    rw [execB_status h, hs]
    simp [statusByPriority, Instr.fields]
  | lw =>
    rw [execM_status (body := loadWord) (fun _ _ _ => rfl) h, hs]
    simp [statusByPriority, Instr.fields]
  | sw =>
    rw [execM_status (body := storeWord) (fun _ _ _ => rfl) h, hs]
    simp [statusByPriority, Instr.fields]
  | illegalOp0 | illegalOp6 | illegalOp7 =>
    rw [raise_status h]
    simp [statusByPriority, Instr.fields]
  | illegalOp1Fn0 =>
    rw [badFunctionR_status h]
    simp [statusByPriority, Instr.fields]
  | illegalOp2Fn0 | illegalOp3Fn0 | illegalOp3Fn5 =>
    rw [badFunctionIB_status h]
    simp [statusByPriority, Instr.fields]
  | illegalOp3Fn6Fn7 a b c f =>
    obtain ⟨-, h6⟩ := (Instr.wf_illegalOp3Fn6Fn7 ..).mp hi
    rw [badFunctionIB_status h]
    simp [statusByPriority, Instr.fields, show 4 < f by omega]

/-- A cycle at a line whose fields can be read ends in the status that the order of checks gives. -/
theorem Cycle.status_of_decoded (c : Cycle s t) (hs : s.status = .running) {line : Line} (hf : s.program[s.pc]? = some line)
    {d : Decoded} (hd : decodeFields line = some d) : t.status = statusByPriority d s := by
  have hw := wf_of_decodeFields hd
  have hi : decode line = .ok d.toInstr := decode_eq_ok.mpr ⟨d, hd, rfl⟩
  rw [← d.fields_toInstr hw]
  cases c with
  | held hn => exact absurd hs hn
  | halted _ hpc => exact absurd (lt_length_of_fetched hf) hpc.not_gt
  | malformed _ l hl he =>
    obtain rfl := Option.some.inj (hf.symm.trans hl)
    cases hi.symm.trans he
  | raised _ l hl i he k hx | completed _ l hl i he u hx =>
    obtain rfl := Option.some.inj (hf.symm.trans hl)
    obtain rfl := Except.ok.inj (hi.symm.trans he)
    have hst := exec_status hs (d.wf_toInstr hw) hx
    exact hst

end

/-! ## Runs -/

/-- A run that leaves a running state started in one. -/
theorem running_of_run {k : Nat} {s t : State} (h : Host.Core.run core k s = .next t) (ht : t.status = .running) :
    s.status = .running := by
  by_contra hs
  rw [run_of_not_running k hs] at h
  exact hs (Host.Outcome.next.inj h ▸ ht)

/-- A completed cycle puts out its trace record and no report. -/
theorem Cycle.outputs_of_running {s t : State} (c : Cycle s t) (hs : s.status = .running) (ht : t.status = .running) :
    (traceRecords t.out).length = (traceRecords s.out).length + 1 ∧ faultReports t.out = faultReports s.out := by
  obtain ⟨line, i, u, -, -, -, rfl⟩ := c.of_running hs ht
  exact ⟨rfl, rfl⟩

/-! ## The statements -/

/-- Settles O32: the step on a line that decodes, and on one that does not. -/
theorem stepRunsDecodedInstruction : Obligations.StepRunsDecodedInstruction := by
  intro s line hs hf
  have hfetch : fetch s = some line := hf
  refine ⟨fun i u hd hx => ?_, fun e hd => ?_⟩
  · simp only [step, hs, hfetch, hd, hx, commit]
    split
    · next hu => rw [emitTrace_of_running i hu]
    · next hu =>
      rcases (effect_of_exec hx).status_cases with ⟨k, rfl⟩ | ⟨hst, -⟩
      · rw [emitTrace_of_faulted i rfl]
      · exact absurd (hst.trans hs) hu
  · obtain ⟨-, rfl⟩ := decode_eq_error.mp hd
    simp only [step, hs, hfetch, hd]

/-- Settles O35: the step is total and holds an ended run. -/
theorem endedRunHoldsItsState : Obligations.EndedRunHoldsItsState := fun s =>
  ⟨(step_cycle s).imp fun _ => And.left, step_of_not_running⟩

/-- Settles O36: the three statuses a cycle can end in. -/
theorem cycleIsAtomic : Obligations.CycleIsAtomic := by
  intro s hs
  obtain ⟨t, ht, c⟩ := step_cycle s
  refine ⟨t, ht, c.program, ?_⟩
  cases hst : t.status with
  | running =>
    obtain ⟨line, i, u, hf, hd, hx, rfl⟩ := c.of_running hs hst
    exact .inl ⟨rfl, line, i, u, hf, hd, hx, rfl, rfl, rfl⟩
  | faulted info =>
    obtain ⟨rfl, hpc⟩ := c.of_faulted hs hst
    exact .inr (.inl ⟨⟨info, rfl⟩, hpc, rfl, rfl, rfl⟩)
  | halted =>
    obtain ⟨rfl, hpc⟩ := c.of_halted hs hst
    exact .inr (.inr ⟨rfl, hpc, rfl, rfl, rfl⟩)

/-- Settles O37: a faulted cycle has taken its fault, and the run has ended. -/
theorem faultEntryKeepsStateAndReportsOnce : Obligations.FaultEntryKeepsStateAndReportsOnce := by
  intro s t info hs hstep hst
  obtain ⟨rfl, -⟩ := (cycle_of_step hstep).of_faulted hs hst
  exact ⟨rfl, rfl, rfl, rfl, ⟨_, rfl, rfl⟩, rfl, step_of_not_running nofun⟩

/-- Settles O38: by the fetch, the reading of the fields and the order of the Executor's checks. -/
theorem statusFollowsCheckPriority : Obligations.StatusFollowsCheckPriority := by
  intro s hs
  obtain ⟨t, ht, c⟩ := step_cycle s
  refine ⟨t, ht, fun hnone => ?_, fun line hf => ⟨fun hd => ?_, fun d => c.status_of_decoded hs hf⟩⟩
  · rw [step_of_length_le_pc hs (List.getElem?_eq_none_iff.mp hnone)] at ht
    rw [← Host.Outcome.next.inj ht]
    rfl
  · rw [(stepRunsDecodedInstruction s line hs hf).2 _ (decode_eq_error.mpr ⟨hd, rfl⟩)] at ht
    rw [← Host.Outcome.next.inj ht]
    rfl

/-- Settles O39: reset is a start. -/
theorem invariantHoldsAtReset : Obligations.InvariantHoldsAtReset := inv_of_start rfl rfl rfl rfl

/-- Settles O40: every outcome of a step keeps each part of the invariant. -/
theorem invariantKeptByEveryStep : Obligations.InvariantKeptByEveryStep := fun _ _ h hstep => (cycle_of_step hstep).inv h

/-- Settles O41: the pc moves past a stored line or to a 12-bit target, and a canonical line decodes. -/
theorem hardwareFormKeptByEveryStep : Obligations.HardwareFormKeptByEveryStep := by
  intro s t h hstep
  have c := cycle_of_step hstep
  have ht := c.hardwareForm h
  exact ⟨ht, ht.pc.trans_lt (by decide), c.no_decodeError h⟩

/-- Settles O42: the record of a completed cycle shows the state it leaves; no other outcome puts one out. -/
theorem completedCycleEmitsItsTraceRecord : Obligations.CompletedCycleEmitsItsTraceRecord := by
  intro s t hs hstep
  have c := cycle_of_step hstep
  refine ⟨fun ht => ?_, c.trace_of_not_running⟩
  obtain ⟨line, i, u, hf, hd, -, rfl⟩ := c.of_running hs ht
  exact ⟨line, i.fields, traceRecord i u, hf, (decode_ok_fields hd).2, rfl, rfl, rfl, rfl, u.mem.dump_getElem⟩

/-- Settles O43: by induction on the number of steps, each of which completes its cycle. -/
theorem runEmitsOneRecordPerCycle : Obligations.RunEmitsOneRecordPerCycle := by
  intro k
  induction k with
  | zero =>
    intro s t h _
    obtain rfl := Host.Outcome.next.inj h
    exact ⟨rfl, rfl⟩
  | succ k ih =>
    intro s t h ht
    have hs := running_of_run h ht
    obtain ⟨u, hu, c⟩ := step_cycle s
    rw [run_succ_of_step hu] at h
    obtain ⟨hlen, hrep⟩ := ih u t h ht
    obtain ⟨hlen', hrep'⟩ := c.outputs_of_running hs (running_of_run h ht)
    exact ⟨by omega, hrep.trans hrep'⟩

/-- Settles O44: by the effect of an instruction and the outcome of a step. -/
theorem programStoreNeverChanges : Obligations.ProgramStoreNeverChanges :=
  ⟨fun _ _ _ h => (effect_of_exec h).program, fun _ _ h => (cycle_of_step h).program⟩

end Machine
end Sys2Proof
end

section
/-! PROOFS. The data memory (20_memory) and the load and store on it (44_load_store): the word at an address, what a word
store leaves, canonical memories as data, and how the host starts a run on one (70_reset_and_hazards). -/

namespace Sys2Proof
namespace Machine

/-! ## Words in memory -/

/-- A word is the number its four bytes stand for, most significant first (20_memory R53). -/
theorem toNat_readWord (m : Memory) (a : Nat) :
    (m.readWord a).toNat = (m.read a).toNat * 2 ^ 24 + (m.read (a + 1)).toNat * 2 ^ 16 +
      (m.read (a + 2)).toNat * 2 ^ 8 + (m.read (a + 3)).toNat := by
  have h1 := (m.read (a + 1)).isLt
  have h2 := (m.read (a + 2)).isLt
  have h3 := (m.read (a + 3)).isLt
  simp only [Memory.readWord, BitVec.toNat_append]
  rw [← Nat.shiftLeft_add_eq_or_of_lt h1, ← Nat.shiftLeft_add_eq_or_of_lt h2, ← Nat.shiftLeft_add_eq_or_of_lt h3]
  simp only [Nat.shiftLeft_eq]
  ring

/-- The word read where the four bytes of `v` stand is `v`. -/
theorem readWord_of_bytes {m : Memory} {a : Nat} {v : Word} (h : ∀ k < 4, m.read (a + k) = byteOf v k) :
    m.readWord a = v := by
  apply BitVec.eq_of_toNat_eq
  have h0 := h 0 (by decide)
  rw [toNat_readWord, h 1 (by decide), h 2 (by decide), h 3 (by decide), show m.read a = byteOf v 0 from h0]
  simp only [toNat_byteOf]
  have := v.isLt
  omega

/-- A word store is read back (20_memory R53, R54). -/
theorem readWord_writeWord {m : Memory} (hm : m.wf = true) {a : Nat} (v : Word) (ha : a ≤ 28) :
    (m.writeWord a v).readWord a = v :=
  readWord_of_bytes fun _ => Memory.read_writeWord_inside m hm v ha

/-- Byte `k` of a word as a shift and a mask (20_memory R54). -/
theorem toNat_byteOf_eq_and (v : Word) (k : Nat) : (byteOf v k).toNat = v.toNat >>> (8 * (3 - k)) &&& 0xFF := by
  rw [toNat_byteOf, Nat.shiftRight_eq_div_pow, show 0xFF = 2 ^ 8 - 1 from rfl, Nat.and_two_pow_sub_one_eq_mod]

/-! ## Canonical memories as data -/

/-- A canonical memory whose byte at `a` is not blank starts at `a` or below. -/
theorem Memory.le_of_read_ne_blank {lo a : Nat} {m : Memory} (hm : Memory.wfFrom lo m = true) (h : m.read a ≠ Memory.blank) :
    lo ≤ a :=
  Nat.not_lt.mp fun ha => h (Memory.read_of_lt ha m hm)

theorem Memory.read_head (a : Nat) (v : Byte) (m : Memory) : Memory.read ((a, v) :: m) a = v :=
  if_pos rfl

/-- Beyond its 32 bytes a canonical memory lists nothing. -/
theorem Memory.read_of_length_le {lo a : Nat} (h : 32 ≤ a) (m : Memory) (hm : Memory.wfFrom lo m = true) :
    m.read a = Memory.blank := by
  induction m generalizing lo with
  | nil => rfl
  | cons e m ih =>
    obtain ⟨b, v⟩ := e
    obtain ⟨-, hb, -, hrest⟩ := (Memory.wfFrom_cons ..).mp hm
    rw [Memory.read_cons, if_neg (by omega), ih hrest]

/-- Canonical memories that read alike everywhere list the same entries. -/
theorem Memory.ext_of_wfFrom {lo : Nat} {m m' : Memory} (hm : Memory.wfFrom lo m = true) (hm' : Memory.wfFrom lo m' = true)
    (h : ∀ a, m.read a = m'.read a) : m = m' := by
  induction m generalizing lo m' with
  | nil =>
    cases m' with
    | nil => rfl
    | cons e m' =>
      obtain ⟨b, w⟩ := e
      obtain ⟨-, -, hw, -⟩ := (Memory.wfFrom_cons ..).mp hm'
      exact absurd ((Memory.read_head b w m').symm.trans (h b).symm) hw
  | cons e m ih =>
    obtain ⟨a, v⟩ := e
    obtain ⟨-, ha, hv, hrest⟩ := (Memory.wfFrom_cons ..).mp hm
    cases m' with
    | nil => exact absurd ((Memory.read_head a v m).symm.trans (h a)) hv
    | cons e' m' =>
      obtain ⟨b, w⟩ := e'
      obtain ⟨-, hb, hw, hrest'⟩ := (Memory.wfFrom_cons ..).mp hm'
      have hba : b ≤ a := Memory.le_of_read_ne_blank (m := (b, w) :: m')
        ((Memory.wfFrom_cons ..).mpr ⟨le_rfl, hb, hw, hrest'⟩) (by rwa [← h, Memory.read_head])
      have hab : a ≤ b := Memory.le_of_read_ne_blank (m := (a, v) :: m)
        ((Memory.wfFrom_cons ..).mpr ⟨le_rfl, ha, hv, hrest⟩) (by rwa [h, Memory.read_head])
      obtain rfl := Nat.le_antisymm hab hba
      have hvw : v = w := by simpa only [Memory.read_head] using h a
      have htail : m = m' := by
        refine ih hrest hrest' fun c => ?_
        by_cases hc : c = a
        · rw [Memory.read_of_lt (lo := a + 1) (by omega) m hrest, Memory.read_of_lt (lo := a + 1) (by omega) m' hrest']
        · simpa only [Memory.read_cons, if_neg hc] using h c
      rw [hvw, htail]

/-! ## LW and SW by their address -/

section
variable {s : State} {a b c : Nat}

/-- An access at an address where a word fits does its work and advances. -/
theorem execM_accesses {body : Fin 32 → Nat → State → State} (ha : a < 32) (hb : b < 32) (h : s.regs[b].toNat + c ≤ 28) :
    execM body a b c s = .next (body ⟨a, ha⟩ (s.regs[b].toNat + c) s).advance :=
  execM_of_lt body ha hb h

/-- The faults of an access (44_load_store R190): the last byte beyond memory, the first byte beyond memory, a bad register
field. -/
theorem execM_faults {body : Fin 32 → Nat → State → State} :
    (∀ (_ : a < 32) (hb : b < 32), 29 ≤ s.regs[b].toNat + c → s.regs[b].toNat + c ≤ 31 →
      execM body a b c s = .next (takeFault (.executionError .memoryWordOverrun) s)) ∧
    (∀ (_ : a < 32) (hb : b < 32), 32 ≤ s.regs[b].toNat + c →
      execM body a b c s = .next (takeFault (.executionError .memoryAddressOutOfBounds) s)) ∧
    (32 ≤ a ∨ 32 ≤ b → execM body a b c s = .next (takeFault (.executionError .registerIndexOutOfBounds) s)) :=
  ⟨fun ha hb h29 h31 => execM_of_overrun body ha hb h29 (Nat.lt_succ_of_le h31),
    fun ha hb h32 => execM_of_outside body ha hb h32, fun h => execM_of_not body (by omega)⟩

theorem storeWord_mem (r : Fin 32) (e : Nat) : (storeWord r e s).mem = s.mem.writeWord e s.regs[r] := rfl

theorem exec_lw : exec (.lw a b c) s = execM loadWord a b c s := rfl
theorem exec_sw : exec (.sw a b c) s = execM storeWord a b c s := rfl

/-- A canonical line of `op_code` 4 to 7 decodes to the instruction its `op_code` selects, whatever its last six
characters. -/
theorem decode_formatM {o x : Nat} (ho : 4 ≤ o) (ho8 : o < 8) (ha : a < 64) (hb : b < 64) (hc : c < 4096) :
    decode (bits 3 o ++ bits 6 a ++ bits 6 b ++ bits 12 c ++ bits 6 x) = .ok (Decoded.mk o a b c 0).toInstr :=
  decode_eq_ok.mpr ⟨_, decodeFields_formatM ho ho8 ha hb hc, rfl⟩

end

/-! ## How the host starts a run -/

/-- A byte of a launch memory. -/
theorem read_ofBytes (v : Vector Byte 32) (n : Nat) (h : n < 32) : (Memory.ofBytes v).read n = v[n] := by
  have hread := Memory.read_foldl_write (List.finRange 32) (fun i => v[i]) [] rfl ⟨n, h⟩
  rwa [if_pos (List.mem_finRange _)] at hread

theorem canonicalLine_lineOfWord (iw : Nat) : canonicalLine (lineOfWord iw) = true := by
  unfold canonicalLine lineOfWord
  rw [all_bits_binary, bits_length]
  rfl

/-- The program of at most 4096 words is in the hardware form (decisions D1, D7). -/
theorem hardwareForm_load_words {ws : List (BitVec 33)} (h : ws.length ≤ 4096) :
    (load (ws.map fun w => lineOfWord w.toNat)).HardwareForm where
  length := by simpa [load] using h
  canonical := by
    intro line hline
    obtain ⟨w, -, rfl⟩ := List.mem_map.mp hline
    exact canonicalLine_lineOfWord _
  pc := Nat.zero_le _

/-! ## The statements -/

/-- Settles O53: the bytes, the frame, the canonical form and the read-back of a word store. -/
theorem memWriteThenRead : Obligations.MemWriteThenRead := by
  intro m a v hm ha
  have hbyte {k : Nat} (hk : k < 4) : ((m.writeWord a v).read (a + k)).toNat = v.toNat >>> (8 * (3 - k)) &&& 0xFF := by
    rw [Memory.read_writeWord_inside m hm v ha hk, toNat_byteOf_eq_and]
  exact ⟨hbyte (k := 0) (by decide), hbyte (k := 1) (by decide), hbyte (k := 2) (by decide), hbyte (k := 3) (by decide),
    fun _ => Memory.read_writeWord_outside m v, Memory.wf_writeWord m hm v ha, readWord_writeWord hm v ha⟩

/-- Settles O54: the load reads a word whose bytes are those that the store wrote. -/
theorem loadAfterStoreGivesTheStoredValue : Obligations.LoadAfterStoreGivesTheStoredValue := by
  intro r b o d b' o' s t u hr hb hd hb' hm hA ht hbytes haddr
  rw [exec_sw, execM_accesses hr hb hA] at ht
  obtain rfl := Host.Outcome.next.inj ht
  refine ⟨_, (exec_lw.trans (execM_accesses hd hb' (haddr ▸ hA))), ?_⟩
  have hword : u.mem.readWord (s.regs[b].toNat + o) = s.regs[r] := readWord_of_bytes fun k hk =>
    (hbytes k hk).trans (Memory.read_writeWord_inside s.mem hm s.regs[r] hA hk)
  rw [haddr]
  simp [loadWord, hword]

/-- Settles O55: beyond 31 both memories are blank, so they read alike everywhere. -/
theorem equalMemoriesAreEqualData : Obligations.EqualMemoriesAreEqualData := by
  intro m m' hm hm' h
  refine Memory.ext_of_wfFrom hm hm' fun a => ?_
  rcases lt_or_ge a 32 with ha | ha
  · exact h a ha
  · rw [Memory.read_of_length_le ha m hm, Memory.read_of_length_le ha m' hm']

/-- Settles O57: the launch memory has the given bytes, and loaded words are canonical lines at a start. -/
theorem hostStartsARun : Obligations.HostStartsARun := by
  refine ⟨fun _ => rfl, fun regs bytes p => ⟨rfl, rfl, rfl, rfl, ?_⟩, fun ws => ⟨fun h => ?_, fun h => ?_⟩⟩
  · rw [launch_mem]
    exact read_ofBytes bytes
  · exact if_neg (Nat.not_le.mpr h)
  · exact ⟨_, if_pos h, hardwareForm_load_words h, inv_of_start rfl rfl rfl rfl, List.length_map _⟩

/-- Settles O52: the four bytes of a word. -/
theorem memReadIsBigEndian : Obligations.MemReadIsBigEndian := toNat_readWord

/-- Settles O19: the access of the load reads the word at the address. -/
theorem lwLoadsBigEndianWord : Obligations.LwLoadsBigEndianWord := by
  intro a b c x s
  simp only [exec_lw]
  exact ⟨fun ha hb hc => decode_formatM (o := 4) (by decide) (by decide) (by omega) (by omega) hc,
    fun ha hb h => ⟨_, toNat_readWord _ _, execM_accesses ha hb h⟩, execM_faults⟩

/-- Settles O20: the access of the store writes the word at the address. -/
theorem swStoresBigEndianWord : Obligations.SwStoresBigEndianWord := by
  intro a b c x s
  simp only [exec_sw]
  refine ⟨fun ha hb hc => decode_formatM (o := 5) (by decide) (by decide) (by omega) (by omega) hc,
    fun ha hb h => ⟨_, execM_accesses ha hb h, fun _ => Memory.read_writeWord_outside _ _, fun hm => ?_⟩, execM_faults⟩
  refine ⟨Memory.wf_writeWord _ hm _ h, fun k hk => ?_⟩
  rw [storeWord_mem, Memory.read_writeWord_inside _ hm _ h hk, toNat_byteOf]
  rfl

end Machine
end Sys2Proof
end

section
/-! PROOFS. The instructions that can fault by their operands' values or by their function, from the forms already given:
DIV and DIVI by their divisor (41_alu_reg R134, 42_alu_imm R154), the branches that compare the order (43_branch R173, R174),
and the illegal rows (30_encoding R92); then the values at reset and the codes of a run's end. -/

namespace Sys2Proof
namespace Machine

section
variable {a b c : Nat} {s : State}

/-! ## Division -/

/-- With its three registers and a zero divisor, DIV faults. -/
theorem execR_opDiv_of_zero (ha : a < 32) (hb : b < 32) (hc : c < 32) (h : s.regs[c].toNat = 0) :
    execR opDiv a b c s = .next (takeFault (.executionError .divisionByZero) s) := by
  rw [execR_of_lt opDiv ha hb hc, State.reg_mk, State.reg_mk, opDiv_of_zero h]
  rfl

/-- With its two registers and an immediate 0, DIVI faults. -/
theorem execI_opDiv_of_zero (ha : a < 32) (hb : b < 32) (h : (zext32 c).toNat = 0) :
    execI opDiv a b c s = .next (takeFault (.executionError .divisionByZero) s) := by
  rw [execI_of_lt opDiv ha hb, State.reg_mk, opDiv_of_zero h]
  rfl

theorem exec_div : exec (.div a b c) s = execR opDiv a b c s := rfl
theorem exec_divi : exec (.divi a b c) s = execI opDiv a b c s := rfl

/-! ## The illegal rows of `op_code` 1 to 3 -/

theorem badFunctionR_of_lt (ha : a < 32) (hb : b < 32) (hc : c < 32) :
    badFunctionR a b c s = .next (takeFault (.executionError .unrecognizedFunction) s) :=
  if_pos ⟨ha, hb, hc⟩

theorem badFunctionR_of_le (h : 32 ≤ a ∨ 32 ≤ b ∨ 32 ≤ c) :
    badFunctionR a b c s = .next (takeFault (.executionError .registerIndexOutOfBounds) s) :=
  if_neg (by omega)

theorem badFunctionIB_of_lt (ha : a < 32) (hb : b < 32) :
    badFunctionIB a b s = .next (takeFault (.executionError .unrecognizedFunction) s) :=
  if_pos ⟨ha, hb⟩

theorem badFunctionIB_of_le (h : 32 ≤ a ∨ 32 ≤ b) :
    badFunctionIB a b s = .next (takeFault (.executionError .registerIndexOutOfBounds) s) :=
  if_neg (by omega)

end

/-! ## The statements -/

/-- Settles O4: `ExecR` writes the quotient that the operation answers, or takes its fault. -/
theorem divWritesQuotient : Obligations.DivWritesQuotient := by
  intro a b c s
  simp only [exec_div]
  exact ⟨fun ha hb hc => ⟨decode_formatR ha hb hc (by decide), fun h => execR_writes ha hb hc (opDiv_of_ne h),
    execR_opDiv_of_zero ha hb hc⟩, execR_faults⟩

/-- Settles O11: `ExecI` writes the quotient that the operation answers, or takes its fault. -/
theorem diviWritesQuotient : Obligations.DiviWritesQuotient := by
  intro a b c s
  simp only [exec_divi]
  refine ⟨fun ha hb hc => ⟨decode_formatIB (by decide) (by decide) (by omega) (by omega) hc (by decide), ?_⟩, execI_faults⟩
  have hz : (zext32 c).toNat = c := toNat_zext32 (by omega)
  refine ⟨fun h => execI_writes ha hb ?_, fun h => execI_opDiv_of_zero ha hb (hz.trans h)⟩
  have hop := opDiv_of_ne (x := s.regs[b]) (y := zext32 c) (hz.trans_ne h)
  rwa [hz] at hop

/-- Settles O17: `ExecB` of the unsigned comparison for less. -/
theorem bltJumpsIfLess : Obligations.BltJumpsIfLess := by
  intro a b c s
  exact branch_decodes_and_jumps_or_faults (by decide) rfl rfl fun _ _ => condLt_iff _ _

/-- Settles O18: `ExecB` of the unsigned comparison for greater. -/
theorem bgtJumpsIfGreater : Obligations.BgtJumpsIfGreater := by
  intro a b c s
  exact branch_decodes_and_jumps_or_faults (by decide) rfl rfl fun _ _ => condGt_iff _ _

/-- Settles O21: the three formats decode, and the rows look at no field. -/
theorem unrecognizedOpcodesFault : Obligations.UnrecognizedOpcodesFault := by
  intro a b c f x s
  refine ⟨fun ha hb hc hf => ⟨?_, ?_, ?_⟩, rfl, rfl, rfl⟩
  · exact decode_eq_ok.mpr ⟨_, decodeFields_formatIB (by decide) (by decide) ha hb hc hf, rfl⟩
  · exact decode_formatM (by decide) (by decide) ha hb hc
  · exact decode_formatM (by decide) (by decide) ha hb hc

/-- Settles O22: the formats decode, and the rows check their register fields before the function. -/
theorem aluFunctionZeroFaults : Obligations.AluFunctionZeroFaults := fun a b c _ =>
  ⟨fun ha hb hc => decode_eq_ok.mpr ⟨_, decodeFields_formatR ha hb hc (by decide), rfl⟩,
    fun ha hb hc => decode_formatIB (by decide) (by decide) ha hb hc (by decide),
    badFunctionR_of_lt, badFunctionR_of_le, badFunctionIB_of_lt, badFunctionIB_of_le⟩

/-- Settles O23: the format decodes for each function, and the rows check their register fields before it. -/
theorem branchFunctionsOutsideRangeFault : Obligations.BranchFunctionsOutsideRangeFault := by
  intro a b c f s
  refine ⟨fun ha hb hc => ?_, fun i hi => ?_⟩
  · have hdec {g : Nat} (hg : g < 8) := decode_formatIB (o := 3) (by decide) (by decide) ha hb hc hg
    refine ⟨hdec (by decide), hdec (by decide), ?_⟩
    rintro (rfl | rfl)
    all_goals exact hdec (by decide)
  · have hbad : exec i s = badFunctionIB a b s := by
      simp only [List.mem_cons, List.not_mem_nil, or_false] at hi
      rcases hi with rfl | rfl | rfl <;> rfl
    rw [hbad]
    exact ⟨badFunctionIB_of_lt, badFunctionIB_of_le⟩

/-- Settles O56: the fields of the reset state. -/
theorem resetValuesOfEveryField : Obligations.ResetValuesOfEveryField :=
  ⟨rfl, rfl, fun i => Vector.getElem_replicate i.isLt, fun _ => rfl, rfl, rfl⟩

/-- Settles O58: each run status has one exit status, and each fault its codes. -/
theorem exitStatusAndFaultCodes : Obligations.ExitStatusAndFaultCodes := by
  refine ⟨fun st => ?_, rfl, rfl, rfl, rfl, fun _ => ⟨rfl, rfl⟩, fun _ => ⟨rfl, rfl⟩, rfl⟩
  cases st <;> simp [RunStatus.exitStatus]

end Machine
end Sys2Proof
end
